-- ==== Sys2Proof/Word.lean ====
section
/-! DEFINITION. The word types of the block: the 32-bit words of the ports and registers, the byte of the grid, and the
fields a command word or a grid address is made of, each exactly as wide as the spec says (R10, R50, R80, R81). -/

namespace Sys2Proof

/-- A 32-bit value: a command word, `wdata`, `rdata`, `SEED`, `GEN`, `PRNG_STATE`, `STATUS` (R7, R9, R55). -/
abbrev Word := BitVec 32

/-- One byte of a grid: eight cells, bit 7 the leftmost (R51, R53). -/
abbrev Byte := BitVec 8

/-- A row number, 0 to 127; its arithmetic is modulo 128 by its width (R80, R138). -/
abbrev Row := BitVec 7

/-- A column number, 0 to 63; its arithmetic is modulo 64 by its width (R80, R138). -/
abbrev Col := BitVec 6

/-- A byte column, 0 to 7 (R13, R81). -/
abbrev ByteCol := BitVec 3

/-- A position or bit index inside a byte, 0 to 7. -/
abbrev BitPos := BitVec 3

/-- The index of a physical buffer, 0 or 1 (R22, R23). -/
abbrev BufSel := BitVec 1

/-- An internal grid address `{k, r[6:0], b[2:0]}`, 11 bits wide (R50). -/
abbrev GridAddr := BitVec 11

end Sys2Proof
end

