-- ==== Sys2Proof/Syntax.lean ====
section
/-! DEFINITION. The syntax of the block: the ten commands of the opcode map, one constructor per row of the opcode table
(R85), with the fields the table gives the row. `wdata` is no field of a command word (R72, R77): the state holds it. -/

namespace Sys2Proof

/-- A command of command set version 1 (R2, R85). -/
inductive Instr where
  /-- NOP: do nothing (R200). -/
  | nop
  /-- GETC ROW, COL: read one cell of the current buffer (R100). -/
  | getc (row : Row) (col : Col)
  /-- SETC ROW, COL, V: write one cell of the current buffer; `v` is true for live (R102). -/
  | setc (row : Row) (col : Col) (v : Bool)
  /-- RDB ROW, BYTE: read one byte of the current buffer (R104). -/
  | rdb (row : Row) (byte : ByteCol)
  /-- WRB ROW, BYTE, DATA: write one byte of the current buffer (R106). -/
  | wrb (row : Row) (byte : ByteCol) (data : Byte)
  /-- CLEAR: make every cell of the current buffer dead (R110). -/
  | clear
  /-- STEP: compute the next generation and make it current (R150). -/
  | step
  /-- SEED: fill the current buffer from the seed on `wdata` (R180). -/
  | seed
  /-- RESEED, COND: derive a seed and fill from it; `cond` true is `reseed.t` (R183). -/
  | reseed (cond : Bool)
  /-- RDREG SEL: read one named register (R202). The field is 4 bits wide; only 0 to 3 are legal (R83). -/
  | rdreg (sel : BitVec 4)
  deriving DecidableEq, Repr

/-- The opcode number `OP = cmd[31:28]` of a command (R85). -/
def Instr.opcode : Instr → BitVec 4
  | .nop => 0x0
  | .getc _ _ => 0x1
  | .setc _ _ _ => 0x2
  | .rdb _ _ => 0x3
  | .wrb _ _ _ => 0x4
  | .clear => 0x5
  | .step => 0x6
  | .seed => 0x7
  | .reseed _ => 0x8
  | .rdreg _ => 0x9

end Sys2Proof
end

