-- ==== Sys2Proof/WellFormed.lean ====
section
/-! DEFINITION. The one check a command's fields need: every field is exactly as wide as its range (R80, R81, R108), but for
SEL, whose values 4 to 15 are reserved (R83, R85, R87). -/

namespace Sys2Proof

/-- A command that some legal command word spells: RDREG's SEL is at most 3 (R85's extra constraint). -/
def Instr.wellFormed : Instr → Bool
  | .nop => true
  | .getc _ _ => true
  | .setc _ _ _ => true
  | .rdb _ _ => true
  | .wrb _ _ _ => true
  | .clear => true
  | .step => true
  | .seed => true
  | .reseed _ => true
  | .rdreg sel => decide (sel ≤ 3)

end Sys2Proof
end

