-- ==== Sys2Proof/Decode.lean ====
section
/-! DEFINITION. The decoder of a 32-bit command word (R76 to R88), total on every word, and after it the encoder, written
from the same format tables. A word that spells no command gives `none`: that is ERR_ILLEGAL (R87, R213). -/

namespace Sys2Proof

/-- A row of the opcode map: a word `w` is the row's command when `w & mask = value` (R85). -/
structure OpRow where
  value : Word
  mask : Word
  deriving DecidableEq, Repr

/-- R85: `w & mask = match`. -/
def OpRow.matchesWord (row : OpRow) (w : Word) : Bool := w &&& row.mask == row.value

/-- R85, NOP. -/
def nopRow : OpRow := ⟨0x00000000, 0xFFFFFFFF⟩
/-- R85, GETC: V and `cmd[13:0]` are reserved. -/
def getcRow : OpRow := ⟨0x10000000, 0xF0007FFF⟩
/-- R85, SETC. -/
def setcRow : OpRow := ⟨0x20000000, 0xF0003FFF⟩
/-- R85, RDB: DATA and `cmd[17:8]` are reserved. -/
def rdbRow : OpRow := ⟨0x30000000, 0xF003FFFF⟩
/-- R85, WRB. -/
def wrbRow : OpRow := ⟨0x40000000, 0xF003FF00⟩
/-- R85, CLEAR. -/
def clearRow : OpRow := ⟨0x50000000, 0xFFFFFFFF⟩
/-- R85, STEP. -/
def stepRow : OpRow := ⟨0x60000000, 0xFFFFFFFF⟩
/-- R85, SEED. -/
def seedRow : OpRow := ⟨0x70000000, 0xFFFFFFFF⟩
/-- R85, RESEED. -/
def reseedRow : OpRow := ⟨0x80000000, 0xFFFFFFFE⟩
/-- R85, RDREG. -/
def rdregRow : OpRow := ⟨0x90000000, 0xFFFFFFF0⟩

/-- The opcode map, in the order of R85. -/
def opcodeRows : List OpRow :=
  [nopRow, getcRow, setcRow, rdbRow, wrbRow, clearRow, stepRow, seedRow, reseedRow, rdregRow]

/-- `OP = cmd[31:28]` (R76). -/
def fieldOp (w : Word) : BitVec 4 := w.extractLsb' 28 4
/-- `ROW = cmd[27:21]` (R80). -/
def fieldRow (w : Word) : Row := w.extractLsb' 21 7
/-- `COL = cmd[20:15]` (R80). -/
def fieldCol (w : Word) : Col := w.extractLsb' 15 6
/-- `V = cmd[14]` (R81). -/
def fieldV (w : Word) : Bool := w.getLsbD 14
/-- `BYTE = cmd[20:18]` (R81). -/
def fieldByte (w : Word) : ByteCol := w.extractLsb' 18 3
/-- `DATA = cmd[7:0]` (R81). -/
def fieldData (w : Word) : Byte := w.extractLsb' 0 8
/-- `COND = cmd[0]` (R82). -/
def fieldCond (w : Word) : Bool := w.getLsbD 0
/-- `SEL = cmd[3:0]` (R83). -/
def fieldSel (w : Word) : BitVec 4 := w.extractLsb' 0 4

/-- R86's decode: the command a word spells, or `none` where no row of the opcode map matches or RDREG's SEL exceeds 3.
No two rows match one word, so the order of the tests does not matter. -/
def decode (w : Word) : Option Instr :=
  if nopRow.matchesWord w then some .nop
  else if getcRow.matchesWord w then some (.getc (fieldRow w) (fieldCol w))
  else if setcRow.matchesWord w then some (.setc (fieldRow w) (fieldCol w) (fieldV w))
  else if rdbRow.matchesWord w then some (.rdb (fieldRow w) (fieldByte w))
  else if wrbRow.matchesWord w then some (.wrb (fieldRow w) (fieldByte w) (fieldData w))
  else if clearRow.matchesWord w then some .clear
  else if stepRow.matchesWord w then some .step
  else if seedRow.matchesWord w then some .seed
  else if reseedRow.matchesWord w then some (.reseed (fieldCond w))
  else if rdregRow.matchesWord w then
    if fieldSel w ≤ 3 then some (.rdreg (fieldSel w)) else none
  else none

/-- The command word of a command: its opcode and fields at their places, every reserved bit 0 (R76 to R83). Format N: NOP,
CLEAR, STEP, SEED; format C: GETC, SETC; format B: RDB, WRB; format R: RESEED; format G: RDREG. -/
def encode : Instr → Word
  | .nop => 0x0#4 ++ 0#28
  | .getc row col => 0x1#4 ++ row ++ col ++ 0#1 ++ 0#14
  | .setc row col v => 0x2#4 ++ row ++ col ++ BitVec.ofBool v ++ 0#14
  | .rdb row byte => 0x3#4 ++ row ++ byte ++ 0#10 ++ 0#8
  | .wrb row byte data => 0x4#4 ++ row ++ byte ++ 0#10 ++ data
  | .clear => 0x5#4 ++ 0#28
  | .step => 0x6#4 ++ 0#28
  | .seed => 0x7#4 ++ 0#28
  | .reseed cond => 0x8#4 ++ 0#27 ++ BitVec.ofBool cond
  | .rdreg sel => 0x9#4 ++ 0#24 ++ sel

/-- The command the decoder reads from the bits `w` of a word of `nbits` bits, bit 0 the least significant; every bit above
`nbits` is 0. A command is one 32-bit word of the port, so no byte order is involved (R55, R88). -/
def decodeTableWord (nbits w : Nat) : Option Instr :=
  decode (BitVec.ofNat 32 (w % 2 ^ nbits))

end Sys2Proof
end

