-- ==== Sys2Proof/Config.lean ====
section
/-! DEFINITION. The implementation parameters, at the values the spec fixes for this hardware (R6 to R9). None is left
open: the spec has no free value in this block (see notes/assumptions). -/

namespace Sys2Proof.Config

/-- `ROWS` (R6). -/
abbrev rows : Nat := 128

/-- `COLS` (R6). -/
abbrev cols : Nat := 64

/-- `BYTES_PER_ROW` (R6). -/
abbrev bytesPerRow : Nat := 8

/-- The bytes of one grid, `ROWS * BYTES_PER_ROW` (R6, R22). -/
abbrev bytesPerGrid : Nat := 1024

/-- The number of addresses of the internal grid address space (R50, R60). -/
abbrev gridSpace : Nat := 2048

/-- `SHIFT_MOD` of the seed derivation (R8). -/
abbrev shiftMod : Nat := 21

/-- `HARVEST_SHIFTED`: the byte that is shifted left (R9, R176). -/
abbrev harvestShifted : Row × ByteCol := (0, 0)

/-- `HARVEST_AMOUNT`: the byte that gives the shift amount (R9, R176). -/
abbrev harvestAmount : Row × ByteCol := (64, 4)

/-- `HARVEST_XOR`: the byte exclusive-ored in (R9, R176). -/
abbrev harvestXor : Row × ByteCol := (32, 2)

/-- `PRNG_A`, the multiplier of the generator (R9, R171). -/
abbrev prngA : Word := 1664525

/-- `PRNG_C`, the increment of the generator (R9, R171). -/
abbrev prngC : Word := 1013904223

end Sys2Proof.Config
end

