-- ==== Sys2Proof/Machine/State.lean ====
section
/-! DEFINITION. The state of the block as plain data: the architectural record of R37, the hidden state of R34, the command
port of R70 and R75, and the environment's input signals; and the state right after reset (R35, R240). -/

namespace Sys2Proof.Machine

/-- The grid memory: (grid address, byte) pairs, addresses strictly rising (`Memory.wf` in Machine/Ops.lean). A byte whose
value the spec leaves unspecified (R24, R35) is not listed. -/
abbrev Memory := List Host.Cell

/-- PHASE (R27). The fourth code, 0b11, is never produced and has no constructor. -/
inductive Phase where
  /-- After reset: the current buffer holds unspecified bytes. -/
  | uninit
  /-- The current buffer was just initialised by SEED, CLEAR or an effective RESEED. -/
  | seeded
  /-- At least one STEP since the last initialisation. -/
  | evolving
  deriving DecidableEq, Repr

/-- The sticky error of STATUS.ERR (R31, R216). The reserved codes are never produced and have no constructor. -/
inductive Err where
  /-- No error recorded. -/
  | none
  /-- ERR_ILLEGAL: a command word that spells no command (R213). -/
  | illegal
  /-- ERR_UNINIT: a command that needs an initialised buffer, in phase UNINIT (R214). -/
  | uninit
  /-- ERR_INVARIANT: an internal index violation; a conforming implementation never raises it (R215). -/
  | invariant
  deriving DecidableEq, Repr

/-- A response: `rdata` and `rsp_err` (R73). -/
structure Response where
  rdata : Word
  rspErr : Bool
  deriving DecidableEq, Repr

/-- Where the core sequencer stands on the command port (R75, R240). At most one command is in flight. -/
inductive Port where
  /-- `rst_n` was low at the last edge: no command is accepted, no response presented (R240). -/
  | inReset
  /-- `cmd_ready` = 1: the core can accept a command. -/
  | ready
  /-- A command has been accepted and has not completed (R34 (b)). -/
  | busy
  /-- The command has completed and its response is presented, `rsp_valid` = 1. -/
  | responding (r : Response)
  deriving DecidableEq, Repr

/-- The input signals of R70 as the core samples them at one edge; `trigger` is `trigger_i` behind the synchroniser (R71). -/
structure Pins where
  rstN : Bool
  cmdValid : Bool
  cmd : Word
  wdata : Word
  rspReady : Bool
  trigger : Bool
  deriving DecidableEq, Repr

/-- The three harvested bytes a RESEED latches before its fill begins (R34 (d), R175, R184). -/
structure Harvest where
  /-- A, HARVEST_SHIFTED. -/
  shifted : Byte
  /-- B, HARVEST_AMOUNT. -/
  amount : Byte
  /-- C, HARVEST_XOR. -/
  xor : Byte
  deriving DecidableEq, Repr

/-- The state of the block and of its port. -/
structure State where
  /-- BUF[0] and BUF[1], by grid address (R22, R50). -/
  mem : Memory
  /-- CUR: the buffer that is current (R23). -/
  cur : BufSel
  /-- PHASE (R27). -/
  phase : Phase
  /-- SEED: the last seed applied to the current buffer (R25). -/
  seed : Word
  /-- PRNG_STATE (R26). -/
  prngState : Word
  /-- GEN: the generation counter (R28). -/
  gen : Word
  /-- STATUS.RS (R30). -/
  rs : Bool
  /-- STATUS.ERR (R31). -/
  err : Err
  /-- The command word of the last accepted command (R34 (b), R75); kept after it completes, DESIGN CHOICE
  (notes/assumptions/17.md). -/
  cmd : Word
  /-- The data operand sampled with it (R72), kept alike. -/
  wdata : Word
  /-- The trigger sample a conditional RESEED captured (R34 (c), R185). -/
  trig : Bool
  /-- The bytes the last effective RESEED latched (R34 (d)). -/
  harvest : Harvest
  /-- The core sequencer on the command port (R75). -/
  port : Port
  /-- The input signals at this edge (R70). -/
  pins : Pins
  /-- The input signals of the coming edges, the next first; when none is left the signals hold. -/
  inputs : List Pins
  deriving DecidableEq, Repr

/-- Why the machine stops. -/
inductive Fault where
  /-- Raised by GETC, SETC, RDB, STEP and RESEED on reading a byte of the current buffer whose value the spec leaves
  unspecified (R35). SAFE: no reachable state raises it (R36), and no value is made up. -/
  | unspecifiedByte
  /-- Raised by a step out of reset while STATUS.ERR records ERR_INVARIANT: every effect and response is unspecified until
  reset (R215). SAFE: no command of the model records that error, and nothing is claimed after it. -/
  | invariantViolation
  deriving DecidableEq, Repr

/-- Why an instruction is refused. -/
inductive Refusal where
  /-- For an instruction that has no meaning yet, by its mnemonic; no arm of this model raises it. SAFE. -/
  | notModelled (mnemonic : String)
  deriving DecidableEq, Repr

/-- The input signals of an idle environment with reset released. -/
def Pins.idle : Pins :=
  { rstN := true, cmdValid := false, cmd := 0, wdata := 0, rspReady := false, trigger := false }

/-- The state right after reset (R35, R240): registers 0, PHASE UNINIT, no grid byte specified, no command in flight,
`cmd_ready` = 1. DESIGN CHOICE (notes/assumptions/6.md): `cmd`, `wdata`, `trig`, `harvest` and the environment's signals,
for which the spec states no reset value. -/
def State.reset : State :=
  { mem := []
    cur := 0
    phase := .uninit
    seed := 0
    prngState := 0
    gen := 0
    rs := false
    err := .none
    cmd := 0
    wdata := 0
    trig := false
    harvest := { shifted := 0, amount := 0, xor := 0 }
    port := .ready
    pins := Pins.idle
    inputs := [] }

end Sys2Proof.Machine
end

