-- ==== Sys2Proof/Machine/Ops.lean ====
section
/-! DEFINITION. The operations every command is made of: the two memory primitives of R11 and the whole-buffer write, and the
two ways a command ends (R74): `respond`, and `raise`, the one shared operation that records an error (R211). -/

namespace Sys2Proof.Machine

/-- The three outcomes of a step or a command of this machine. -/
abbrev Outcome := Host.Outcome State Fault Refusal

/-! ### Grid memory -/

/-- What an address that is not listed reads as: no value, for the spec leaves such a byte unspecified (R24, R35). -/
def Memory.unlisted : Option Byte := none

/-- `MemRead(addr, 1)` (R11): the byte at grid address `a`. -/
def Memory.read : Memory → Nat → Option Byte
  | [], _ => Memory.unlisted
  | (x, v) :: m, a => if a = x then some v else Memory.read m a

/-- `MemWrite(addr, 1, v)` (R11), at its place in the rising order of addresses. -/
def Memory.write : Memory → Nat → Byte → Memory
  | [], a, v => [(a, v)]
  | (x, w) :: m, a, v =>
    if a < x then (a, v) :: (x, w) :: m
    else if a = x then (a, v) :: m
    else (x, w) :: Memory.write m a v

/-- The canonical form: addresses strictly rising and inside the grid address space of R50. (No entry can equal what an
unlisted address reads as, for that is no byte.) -/
abbrev Memory.wf (m : Memory) : Prop :=
  (m.map Prod.fst).Pairwise (· < ·) ∧ ∀ x ∈ m, x.1 < Config.gridSpace

/-- The first grid address of buffer `k`: `1024 * k` (R50). -/
def bufBase (k : BufSel) : Nat := Config.bytesPerGrid * k.toNat

/-- The address lies in buffer `k` (R50). -/
def inBuffer (k : BufSel) (a : Nat) : Bool :=
  decide (bufBase k ≤ a) && decide (a < bufBase k + Config.bytesPerGrid)

/-- Every one of the 1024 bytes of buffer `k` has a specified value (R36): the listed addresses of the buffer are all of its
addresses, in order. -/
def Memory.written (m : Memory) (k : BufSel) : Bool :=
  decide ((m.filter fun x => inBuffer k x.1).map Prod.fst = List.range' (bufBase k) Config.bytesPerGrid)

/-- The bytes of a list at successive addresses from `a` on. -/
def cellsFrom : Nat → List Byte → Memory
  | _, [] => []
  | a, v :: vs => (a, v) :: cellsFrom (a + 1) vs

/-- Write a whole buffer: frame byte `n` of buffer `k` becomes entry `n` of `bytes`, the other buffer is untouched. The order
of the 1024 writes is not observable (R58), so they are one function. -/
def Memory.fill (m : Memory) (k : BufSel) (bytes : List Byte) : Memory :=
  (m.filter fun x => decide (x.1 < bufBase k)) ++ cellsFrom (bufBase k) bytes ++
    (m.filter fun x => decide (bufBase k + Config.bytesPerGrid ≤ x.1))

/-! ### How a command ends -/

/-- `respond(v)` (R74): the command completes with response data `v` and no error. DESIGN CHOICE: it completes as the response is
presented (notes/assumptions/16.md), and the hidden `cmd` and `wdata` keep their values (notes/assumptions/17.md). -/
def State.respond (s : State) (v : Word) : State :=
  { s with port := .responding { rdata := v, rspErr := false } }

/-- `raise ERR` (R211): the first error is recorded in STATUS.ERR and a later one is not, the response is `(0, 1)`, and
nothing else changes. There is no trap entry and no return from one (R219, R220). DESIGN CHOICE: the command completes as the
response is presented (notes/assumptions/16.md), and the hidden `cmd` and `wdata`, also of an erroring word, keep their values
(notes/assumptions/17.md). -/
def State.raise (s : State) (e : Err) : State :=
  { s with
    err := if s.err = .none then e else s.err
    port := .responding { rdata := 0, rspErr := true } }

/-- The phase check of R86: in UNINIT the command raises ERR_UNINIT and has no effect (R214), else it is performed. -/
def whenInitialised (s : State) (perform : State → Outcome) : Outcome :=
  match s.phase with
  | .uninit => .next (s.raise .uninit)
  | .seeded => perform s
  | .evolving => perform s

/-- Perform with a byte that was read; a byte without a specified value stops the machine (R35). -/
def withByte (v : Option Byte) (perform : Byte → Outcome) : Outcome :=
  match v with
  | none => .fault .unspecifiedByte
  | some b => perform b

end Sys2Proof.Machine
end

