-- ==== Sys2Proof/Machine/Operands.lean ====
section
/-! DEFINITION. How a command's fields name what they act on: the grid address of a byte, the place of a cell inside its
byte (R50 to R54), and the bytes of the current buffer, the only one a host command addresses (R52). -/

namespace Sys2Proof.Machine

/-- `addr[10:0] = {k, r[6:0], b[2:0]}` (R50). -/
def gridAddr (k : BufSel) (r : Row) (b : ByteCol) : GridAddr := k ++ r ++ b

/-- The byte column of column `c`: `c / 8`, that is `c[5:3]` (R51). -/
def byteOf (c : Col) : ByteCol := c.extractLsb' 3 3

/-- The position of column `c` inside its byte, counted from the left: `c mod 8`, that is `c[2:0]` (R51). -/
def posOf (c : Col) : BitPos := c.extractLsb' 0 3

/-- The column at position `p` from the left of byte column `b`: `8b + p` (R51). -/
def colAt (b : ByteCol) (p : BitPos) : Col := b ++ p

/-- The column that bit `i` of byte column `b` holds: `8b + 7 - i` (R51). -/
def colOfBit (b : ByteCol) (i : BitPos) : Col := colAt b (7 - i)

/-- The bit of a byte that holds its position `p` from the left: bit `7 - p` (R51). -/
def bitIndex (p : BitPos) : Nat := 7 - p.toNat

/-- The cell at position `p` from the left of a byte (R51). -/
def byteCell (v : Byte) (p : BitPos) : Bool := v.getLsbD (bitIndex p)

/-- A byte with the cell at position `p` set to `c` and its other seven bits kept (R102). -/
def setByteCell (old : Byte) (p : BitPos) (c : Bool) : Byte :=
  (old &&& ~~~((1 : Byte) <<< bitIndex p)) ||| (((BitVec.ofBool c).setWidth 8) <<< bitIndex p)

/-- `frame byte n` is at row `n / 8` (R53). -/
def frameRow (n : Nat) : Row := BitVec.ofNat 7 (n / 8)

/-- `frame byte n` is at byte column `n mod 8` (R53). -/
def frameByteCol (n : Nat) : ByteCol := BitVec.ofNat 3 (n % 8)

/-- The memory key of byte `b` of row `r` of the current buffer: `{CUR, r, b}` (R52). -/
def State.curAddr (s : State) (r : Row) (b : ByteCol) : Nat := (gridAddr s.cur r b).toNat

/-- `MemRead({CUR, r, b}, 1)` (R52). -/
def State.readByte (s : State) (r : Row) (b : ByteCol) : Option Byte := s.mem.read (s.curAddr r b)

/-- `MemWrite({CUR, r, b}, 1, v)` (R52). -/
def State.writeByte (s : State) (r : Row) (b : ByteCol) (v : Byte) : State :=
  { s with mem := s.mem.write (s.curAddr r b) v }

/-- `cell(k, r, c)` of a memory (R12, R51), where its byte has a specified value. -/
def Memory.cell (m : Memory) (k : BufSel) (r : Row) (c : Col) : Option Bool :=
  (m.read (gridAddr k r (byteOf c)).toNat).map fun v => byteCell v (posOf c)

/-- `cur(r, c)`: the cell at row `r`, column `c` of the current buffer (R12). -/
def State.curCell (s : State) (r : Row) (c : Col) : Option Bool := s.mem.cell s.cur r c

end Sys2Proof.Machine
end

