-- ==== Sys2Proof/Machine/Flags.lean ====
section
/-! DEFINITION. The STATUS register as a function of the state (R29, R37): the codes of its fields PHASE, CUR, RS and ERR. No
command computes a flag from data; these four fields are all there are (R33). -/

namespace Sys2Proof.Machine

/-- The 2-bit code of PHASE (R27). -/
def Phase.code : Phase → BitVec 2
  | .uninit => 0b00
  | .seeded => 0b01
  | .evolving => 0b10

/-- The 3-bit code of STATUS.ERR (R31, R216). -/
def Err.code : Err → BitVec 3
  | .none => 0b000
  | .illegal => 0b001
  | .uninit => 0b010
  | .invariant => 0b111

/-- STATUS: reserved zeros in [31:7], ERR in [6:4], RS in [3], CUR in [2], PHASE in [1:0] (R29, R202). -/
def State.status (s : State) : Word :=
  0#25 ++ s.err.code ++ BitVec.ofBool s.rs ++ s.cur ++ s.phase.code

/-- The register RDREG reads by selector (R32); a reserved selector names none. -/
def State.readReg (s : State) (sel : BitVec 4) : Option Word :=
  match sel.toNat with
  | 0 => some s.status
  | 1 => some s.seed
  | 2 => some s.gen
  | 3 => some s.prngState
  | _ => none

end Sys2Proof.Machine
end

