-- ==== Sys2Proof/Machine/Control.lean ====
section
/-! DEFINITION. The control commands: NOP and RDREG (R200 to R203). -/

namespace Sys2Proof.Machine

/-- NOP (R200): respond 0 and change nothing. -/
def execNop (s : State) : Outcome := .next (s.respond 0)

/-- RDREG (R202): respond with the named register; a reserved selector raises ERR_ILLEGAL (R83, R87). -/
def execRdreg (sel : BitVec 4) (s : State) : Outcome :=
  match s.readReg sel with
  | some v => .next (s.respond v)
  | none => .next (s.raise .illegal)

end Sys2Proof.Machine
end

