-- ==== Sys2Proof/Machine/NeighborCounter.lean ====
section
/-! DEFINITION. The Moore neighbour counter (R130 to R141): a pure function of one grid. Row and column indices have the
widths of R138, so the torus wrap is the wrap of their arithmetic and no index can leave its range (R139, R140). -/

namespace Sys2Proof.Machine

/-- The content of one buffer: its cell at each row and column (R12, R155). It is computed from memory and never stored. -/
abbrev Grid := Row → Col → Bool

/-- The grid held by buffer `k`, if every one of its bytes has a specified value (R36). -/
def Memory.grid (m : Memory) (k : BufSel) : Option Grid :=
  if m.written k then some fun r c => (m.cell k r c).getD false else none

/-- `up(r) = (r + 127) mod 128` (R131). -/
def up (r : Row) : Row := r + 127

/-- `down(r) = (r + 1) mod 128` (R131). -/
def down (r : Row) : Row := r + 1

/-- `left(b, i)`: the byte and bit one column to the left (R132). -/
def left (b : ByteCol) (i : BitPos) : ByteCol × BitPos := if i < 7 then (b, i + 1) else (b + 7, 0)

/-- `right(b, i)`: the byte and bit one column to the right (R132). -/
def right (b : ByteCol) (i : BitPos) : ByteCol × BitPos := if 0 < i then (b, i - 1) else (b + 1, 7)

/-- `west(c) = (c + 63) mod 64` (R133). -/
def west (c : Col) : Col := c + 63

/-- `east(c) = (c + 1) mod 64` (R133). -/
def east (c : Col) : Col := c + 1

/-- The eight neighbours N, S, W, E, NW, NE, SW, SE of a cell (R134). -/
def neighbours (r : Row) (c : Col) : List (Row × Col) :=
  [(up r, c), (down r, c), (r, west c), (r, east c),
    (up r, west c), (up r, east c), (down r, west c), (down r, east c)]

/-- `count(k, r, c)`: how many of the eight neighbours are live (R130); the cell itself is not counted. -/
def count (g : Grid) (r : Row) (c : Col) : Nat :=
  ((neighbours r c).map fun n => (g n.1 n.2).toNat).sum

/-! ### The row-parallel form (R54, R137): an equivalent reading, used by no command -/

/-- `W(k, r)`: the row word, byte column 0 in bits [63:56] and byte column 7 in bits [7:0], so cell `c` is bit `63 - c`
(R54). -/
def rowWord (g : Grid) (r : Row) : BitVec 64 :=
  BitVec.ofBoolListBE ((List.range 64).map fun c => g r (BitVec.ofNat 6 c))

/-- The count of R137 from the row words `U`, `M`, `D`: `rotr` supplies the west neighbour, `rotl` the east. -/
def countParallel (u m d : BitVec 64) (p : Nat) : Nat :=
  (u.getLsbD p).toNat + (d.getLsbD p).toNat
    + ((m.rotateRight 1).getLsbD p).toNat + ((m.rotateLeft 1).getLsbD p).toNat
    + ((u.rotateRight 1).getLsbD p).toNat + ((u.rotateLeft 1).getLsbD p).toNat
    + ((d.rotateRight 1).getLsbD p).toNat + ((d.rotateLeft 1).getLsbD p).toNat

end Sys2Proof.Machine
end

