-- ==== Sys2Proof/Machine/GenerationStep.lean ====
section
/-! DEFINITION. The generation step (GenerationStepper): the life rule, the pure grid function and STEP (R150 to R159). -/

namespace Sys2Proof.Machine

/-- The life rule B3/S23 for a cell's present value and its count (R152). -/
def life (a : Bool) (n : Nat) : Bool :=
  if a then decide (n = 2 ∨ n = 3) else decide (n = 3)

/-- `stepGrid(G)(r, c) = life(G(r, c), countG(r, c))` (R155). -/
def stepGrid (g : Grid) : Grid := fun r c => life (g r c) (count g r c)

/-- The byte at row `r`, byte column `b` of a grid: its eight cells from the left, bit 7 first (R51). -/
def packByte (g : Grid) (r : Row) (b : ByteCol) : Byte :=
  BitVec.ofBoolListBE
    [g r (colAt b 0), g r (colAt b 1), g r (colAt b 2), g r (colAt b 3),
      g r (colAt b 4), g r (colAt b 5), g r (colAt b 6), g r (colAt b 7)]

/-- The 1024 bytes of a grid in frame order (R53). -/
def gridBytes (g : Grid) : List Byte :=
  (List.range Config.bytesPerGrid).map fun n => packByte g (frameRow n) (frameByteCol n)

/-- What STEP does with the next generation `g` (R150, R151): write it into the next buffer, make that buffer current, advance
GEN modulo 2^32, and enter EVOLVING. -/
def State.advanceTo (s : State) (g : Grid) : State :=
  { s with
    mem := s.mem.fill (~~~s.cur) (gridBytes g)
    cur := ~~~s.cur
    gen := s.gen + 1
    phase := .evolving }

/-- STEP (R150): every cell of the next buffer from the current buffer alone (R153). -/
def execStep (s : State) : Outcome :=
  whenInitialised s fun s =>
    match s.mem.grid s.cur with
    | none => .fault .unspecifiedByte
    | some g => .next ((s.advanceTo (stepGrid g)).respond 0)

end Sys2Proof.Machine
end

