-- ==== Sys2Proof/Machine/GridAccess.lean ====
section
/-! DEFINITION. The grid access commands (BitGrid): GETC, SETC, RDB, WRB and CLEAR (R100 to R110). -/

namespace Sys2Proof.Machine

/-- GETC (R100): respond with one cell of the current buffer, zero-extended to 32 bits. -/
def execGetc (row : Row) (col : Col) (s : State) : Outcome :=
  whenInitialised s fun s =>
    withByte (s.readByte row (byteOf col)) fun byte =>
      .next (s.respond ((BitVec.ofBool (byteCell byte (posOf col))).setWidth 32))

/-- SETC (R102): write one cell of the current buffer and keep the other seven bits of its byte. -/
def execSetc (row : Row) (col : Col) (v : Bool) (s : State) : Outcome :=
  whenInitialised s fun s =>
    withByte (s.readByte row (byteOf col)) fun old =>
      .next ((s.writeByte row (byteOf col) (setByteCell old (posOf col) v)).respond 0)

/-- RDB (R104): respond with one byte of the current buffer, zero-extended to 32 bits. -/
def execRdb (row : Row) (byte : ByteCol) (s : State) : Outcome :=
  whenInitialised s fun s =>
    withByte (s.readByte row byte) fun v => .next (s.respond (v.setWidth 32))

/-- WRB (R106): write one byte of the current buffer. -/
def execWrb (row : Row) (byte : ByteCol) (data : Byte) (s : State) : Outcome :=
  whenInitialised s fun s => .next ((s.writeByte row byte data).respond 0)

/-- The 1024 bytes CLEAR stores. -/
def deadBytes : List Byte := List.replicate Config.bytesPerGrid 0x00

/-- What CLEAR does (R110): every byte of the current buffer 0, PHASE SEEDED, GEN 0. -/
def State.clearCurrent (s : State) : State :=
  { s with mem := s.mem.fill s.cur deadBytes, phase := .seeded, gen := 0 }

/-- CLEAR (R110): legal in every phase. -/
def execClear (s : State) : Outcome := .next (s.clearCurrent.respond 0)

end Sys2Proof.Machine
end

