-- ==== Sys2Proof/Machine/Reseeder.lean ====
section
/-! DEFINITION. The reseeder: the pseudo-random byte stream, the seed fill, the seed derivation, and the commands SEED and
RESEED (R170 to R186). -/

namespace Sys2Proof.Machine

/-- The state after one `prng_next()`: `state * PRNG_A + PRNG_C`, modulo 2^32 by its width (R171). -/
def prngNext (p : Word) : Word := p * Config.prngA + Config.prngC

/-- The byte a `prng_next()` that reached state `p` returns: `p[31:24]` (R171). -/
def prngByte (p : Word) : Byte := p.extractLsb' 24 8

/-- The next `n` bytes of the stream from state `p` (R170, R171). -/
def prngBytes : Nat → Word → List Byte
  | 0, _ => []
  | n + 1, p => prngByte (prngNext p) :: prngBytes n (prngNext p)

/-- The state after the next `n` bytes of the stream from state `p` (R171). -/
def prngAfter : Nat → Word → Word
  | 0, p => p
  | n + 1, p => prngNext (prngAfter n p)

/-- What SEED and an effective RESEED do with their seed `v` (R180, R183): `seedFill(v)`, which loads the generator with the seed
and fills the current buffer with 1024 bytes of the stream (R173), then SEED, GEN and PHASE. -/
def State.applySeed (s : State) (v : Word) : State :=
  { s with
    mem := s.mem.fill s.cur (prngBytes Config.bytesPerGrid v)
    prngState := prngAfter Config.bytesPerGrid v
    seed := v
    gen := 0
    phase := .seeded }

/-- `(zext_32(A) << (B mod 21)) ^ zext_32(C)` of the harvested bytes (R175, R177). -/
def deriveSeed (h : Harvest) : Word :=
  (h.shifted.setWidth 32 <<< (h.amount.toNat % Config.shiftMod)) ^^^ h.xor.setWidth 32

/-- Latch the three harvested bytes of the current buffer (R175, R184), if each has a specified value. -/
def State.latchHarvest (s : State) : Option State :=
  match s.readByte Config.harvestShifted.1 Config.harvestShifted.2,
    s.readByte Config.harvestAmount.1 Config.harvestAmount.2,
    s.readByte Config.harvestXor.1 Config.harvestXor.2 with
  | some a, some b, some c => some { s with harvest := { shifted := a, amount := b, xor := c } }
  | _, _, _ => none

/-- Sample the trigger, once (R185), and record it in RS (R30, R183). -/
def State.sampleTrigger (s : State) : State :=
  { s with trig := s.pins.trigger, rs := s.pins.trigger }

/-- An unconditional RESEED records in RS that it reseeds (R30, R183). -/
def State.markReseeded (s : State) : State := { s with rs := true }

/-- The effective part of RESEED (R183): the harvest is read before the fill writes anything (R184). -/
def reseedNow (s : State) : Outcome :=
  match s.latchHarvest with
  | none => .fault .unspecifiedByte
  | some s => .next ((s.applySeed (deriveSeed s.harvest)).respond 0)

/-- The conditional part of RESEED (R183): once the trigger is sampled, reseed only if the sample is 1. -/
def reseedIfTriggered (s : State) : Outcome :=
  if s.trig then reseedNow s else .next (s.respond 0)

/-- SEED (R180): fill the current buffer from the seed on `wdata`; legal in every phase. -/
def execSeed (s : State) : Outcome := .next ((s.applySeed s.wdata).respond 0)

/-- RESEED (R183): unconditional, or only when the trigger sample is 1; RS records whether it reseeded. -/
def execReseed (cond : Bool) (s : State) : Outcome :=
  whenInitialised s fun s =>
    if cond then reseedIfTriggered s.sampleTrigger else reseedNow s.markReseeded

end Sys2Proof.Machine
end

