-- ==== Sys2Proof/Machine/Dispatch.lean ====
section
/-! DEFINITION. The dispatch of R86: one arm per command, each one call of its meaning. -/

namespace Sys2Proof.Machine

def exec (i : Instr) (s : State) : Host.Outcome State Fault Refusal :=
  match i with
  | .nop => Sys2Proof.Machine.execNop s
  | .getc row col => Sys2Proof.Machine.execGetc row col s
  | .setc row col v => Sys2Proof.Machine.execSetc row col v s
  | .rdb row byte => Sys2Proof.Machine.execRdb row byte s
  | .wrb row byte data => Sys2Proof.Machine.execWrb row byte data s
  | .clear => Sys2Proof.Machine.execClear s
  | .step => Sys2Proof.Machine.execStep s
  | .seed => Sys2Proof.Machine.execSeed s
  | .reseed cond => Sys2Proof.Machine.execReseed cond s
  | .rdreg sel => Sys2Proof.Machine.execRdreg sel s

end Sys2Proof.Machine
end

