-- ==== Sys2Proof/Machine/Port.lean ====
section
/-! DEFINITION. The command port and reset (R70 to R75, R240 to R242): what the block does at one event of its port, given
the signals the environment drives, and what the block's outputs show. Cycle counts are not modelled (R262): a command takes
one step from accepted to completed. -/

namespace Sys2Proof.Machine

/-- `cmd_ready` (R70, R75, R240). -/
def State.cmdReady (s : State) : Bool := s.pins.rstN && decide (s.port = .ready)

/-- The response the block presents: `rsp_valid` is 1 exactly when there is one, and then it carries `rdata` and `rsp_err`
(R70, R73, R240). -/
def State.response (s : State) : Option Response :=
  match s.pins.rstN, s.port with
  | true, .responding r => some r
  | true, .inReset => none
  | true, .ready => none
  | true, .busy => none
  | false, _ => none

/-- `rsp_valid` (R70). -/
def State.rspValid (s : State) : Bool := s.response.isSome

/-- `status_o`, the STATUS register as of the last completed command (R29, R70): a command changes the state only when it
completes. DESIGN CHOICE (notes/assumptions/16.md): that is when its response is presented, not when the host accepts it. -/
def State.statusOut (s : State) : Word := s.status

/-- `rst_n` is low (R240, R241): every piece of the block's state takes its reset value, a command in flight is abandoned,
and no command is accepted and no response presented. The environment's signals are its own. -/
def State.assertReset (s : State) : State :=
  { State.reset with port := .inReset, pins := s.pins, inputs := s.inputs }

/-- A command is accepted: `cmd` and `wdata` are sampled together (R72, R75). -/
def State.accept (s : State) : State :=
  { s with cmd := s.pins.cmd, wdata := s.pins.wdata, port := .busy }

/-- R86 on the accepted command: an illegal word raises ERR_ILLEGAL (R213), any other is performed. -/
def runCommand (s : State) : Outcome :=
  match decode s.cmd with
  | none => .next (s.raise .illegal)
  | some i => exec i s

/-- One event of the port out of reset (R75): a released core becomes ready; a ready core accepts a presented command and
otherwise idles (R227); an accepted command completes; a presented response waits until it is taken. DESIGN CHOICE: a command
completes as its response is presented (notes/assumptions/16.md), and `cmd` and `wdata` keep their values until the next
acceptance or reset (notes/assumptions/17.md). -/
def portEvent (s : State) : Outcome :=
  match s.port with
  | .inReset => .next { s with port := .ready }
  | .ready => .next (if s.pins.cmdValid then s.accept else s)
  | .busy => runCommand s
  | .responding _ => .next (if s.pins.rspReady then { s with port := .ready } else s)

/-- The block at one edge: reset first; then a recorded ERR_INVARIANT, which only reset leaves (R215); then the port. -/
def blockEdge (s : State) : Outcome :=
  if s.pins.rstN then
    if s.err = .invariant then .fault .invariantViolation else portEvent s
  else .next s.assertReset

/-- The environment drives the signals of the next edge; when it has no more, they hold. -/
def State.advancePins (s : State) : State :=
  match s.inputs with
  | [] => s
  | p :: ps => { s with pins := p, inputs := ps }

/-- One step of the block and its environment: the block acts on the present signals, then they change. -/
def blockStep (s : State) : Outcome :=
  match blockEdge s with
  | .next t => .next t.advancePins
  | .fault f => .fault f
  | .refused r => .refused r

end Sys2Proof.Machine
end

