-- ==== Sys2Proof/Machine/Step.lean ====
section
/-! DEFINITION. The step of the machine, and how a word is placed where the next step takes its command from. -/

namespace Sys2Proof.Machine

/-- One step: one event of the command port (Machine/Port.lean). -/
def step (s : State) : Host.Outcome State Fault Refusal := blockStep s

/-- `s` with the word of `nbits` bits `w` accepted on the command port and not yet performed, and reset released, so that the
next step performs it. The block fetches nothing (R21): an accepted command in `cmd` with the port `busy` is where a step
takes its command from (notes/assumptions/8.md). -/
def State.withFetchWord (s : State) (nbits w : Nat) : State :=
  { s with
    cmd := BitVec.ofNat 32 (w % 2 ^ nbits)
    port := .busy
    pins := { s.pins with rstN := true } }

end Sys2Proof.Machine
end

