-- ==== Sys2Proof/Machine/Assembler.lean ====
section
/-! DEFINITION. The assembler syntax of R89 and the pseudo-commands of R90: a line of text, the line it spells, and the
(`cmd`, `wdata`) pairs the line stands for. The block sees only those pairs. -/

namespace Sys2Proof.Machine

/-- The register names of `rdreg` (R89). -/
inductive RegName where
  | status
  | seed
  | gen
  | prng
  deriving DecidableEq, Repr

/-- SEL of a register name (R89, R32). -/
def RegName.sel : RegName → BitVec 4
  | .status => 0
  | .seed => 1
  | .gen => 2
  | .prng => 3

/-- A line of assembly (R89) or a pseudo-command (R90), its operands numbers as written, not yet checked. -/
inductive AsmLine where
  | nop
  | getc (row col : Nat)
  | setc (row col v : Nat)
  | rdb (row byte : Nat)
  | wrb (row byte data : Nat)
  | clear
  | step
  | seed (imm : Nat)
  | reseed
  | reseedT
  | rdreg (name : RegName)
  | live (row col : Nat)
  | kill (row col : Nat)
  | wrrow (row x0 x1 x2 x3 x4 x5 x6 x7 : Nat)
  | rdframe
  | generation
  deriving DecidableEq, Repr

/-- What the host presents for one command: `cmd` and `wdata` (R72). -/
abbrev PortWords := Word × Word

/-- An operand taken into its field; an operand outside the field's range is refused (R89). -/
def operand (w n : Nat) : Option (BitVec w) := if n < 2 ^ w then some (BitVec.ofNat w n) else none

/-- A 0 or 1 operand (R89). -/
def operandBit (n : Nat) : Option Bool := (operand 1 n).map fun v => v == 1

/-- One command with `wdata` = 0, which every command but `seed` ignores (R72, R89). -/
def plain (i : Instr) : List PortWords := [(encode i, 0)]

/-- `rdframe`: the 1024 byte reads in frame order (R90, R53). -/
def readFrame : List Instr :=
  (List.range Config.bytesPerGrid).map fun n => .rdb (BitVec.ofNat 7 (n / 8)) (BitVec.ofNat 3 (n % 8))

/-- The words a line stands for (R89, R90); `none` where an operand is out of range. -/
def AsmLine.assemble : AsmLine → Option (List PortWords)
  | .nop => some (plain .nop)
  | .getc row col => do pure (plain (.getc (← operand 7 row) (← operand 6 col)))
  | .setc row col v => do pure (plain (.setc (← operand 7 row) (← operand 6 col) (← operandBit v)))
  | .rdb row byte => do pure (plain (.rdb (← operand 7 row) (← operand 3 byte)))
  | .wrb row byte data => do pure (plain (.wrb (← operand 7 row) (← operand 3 byte) (← operand 8 data)))
  | .clear => some (plain .clear)
  | .step => some (plain .step)
  | .seed imm => do pure [(encode .seed, ← operand 32 imm)]
  | .reseed => some (plain (.reseed false))
  | .reseedT => some (plain (.reseed true))
  | .rdreg name => some (plain (.rdreg name.sel))
  | .live row col => do pure (plain (.setc (← operand 7 row) (← operand 6 col) true))
  | .kill row col => do pure (plain (.setc (← operand 7 row) (← operand 6 col) false))
  | .wrrow row x0 x1 x2 x3 x4 x5 x6 x7 => do
    let r ← operand 7 row
    let store (b : ByteCol) (x : Nat) : Option (List PortWords) := (operand 8 x).map fun v => plain (.wrb r b v)
    pure ((← store 0 x0) ++ (← store 1 x1) ++ (← store 2 x2) ++ (← store 3 x3)
      ++ (← store 4 x4) ++ (← store 5 x5) ++ (← store 6 x6) ++ (← store 7 x7))
  | .rdframe => some (readFrame.flatMap plain)
  | .generation => some ((Instr.step :: readFrame ++ [Instr.reseed true]).flatMap plain)

/-! ### The text of a line -/

/-- The pieces of a text between the separators `sep`. -/
def splitAt (sep : Char) : List Char → List (List Char)
  | [] => [[]]
  | x :: xs =>
    if x = sep then [] :: splitAt sep xs
    else match splitAt sep xs with
      | [] => [[x]]
      | piece :: more => (x :: piece) :: more

/-- A text without the blanks at its two ends. -/
def trim (t : List Char) : List Char :=
  ((t.dropWhile (· = ' ')).reverse.dropWhile (· = ' ')).reverse

/-- The value of a digit, upper or lower case. -/
def digitOf (c : Char) : Option Nat :=
  if 48 ≤ c.toNat ∧ c.toNat ≤ 57 then some (c.toNat - 48)
  else if 97 ≤ c.toNat ∧ c.toNat ≤ 102 then some (c.toNat - 87)
  else if 65 ≤ c.toNat ∧ c.toNat ≤ 70 then some (c.toNat - 55)
  else none

/-- A number of the given base, from its digits read so far. -/
def numberFrom (base : Nat) : Nat → List Char → Option Nat
  | n, [] => some n
  | n, c :: cs =>
    match digitOf c with
    | none => none
    | some d => if d < base then numberFrom base (base * n + d) cs else none

/-- A number, decimal or `0x` hexadecimal (R89); at least one digit. -/
def parseNumber : List Char → Option Nat
  | [] => none
  | ['0', 'x'] => none
  | '0' :: 'x' :: cs => numberFrom 16 0 cs
  | c :: cs => numberFrom 10 0 (c :: cs)

/-- Lower case, for mnemonics are case-insensitive (R89). -/
def lower (c : Char) : Char := if 65 ≤ c.toNat ∧ c.toNat ≤ 90 then Char.ofNat (c.toNat + 32) else c

/-- The register a name spells (R89). -/
def parseRegName (t : List Char) : Option RegName :=
  if t = ['s', 't', 'a', 't', 'u', 's'] then some .status
  else if t = ['s', 'e', 'e', 'd'] then some .seed
  else if t = ['g', 'e', 'n'] then some .gen
  else if t = ['p', 'r', 'n', 'g'] then some .prng
  else none

/-- The line a lower-case mnemonic and its number operands spell (R89, R90); a wrong number of operands spells none. -/
def lineOf (mnemonic : List Char) (ns : List Nat) : Option AsmLine :=
  if mnemonic = ['n', 'o', 'p'] then (match ns with | [] => some .nop | _ => none)
  else if mnemonic = ['g', 'e', 't', 'c'] then (match ns with | [r, c] => some (.getc r c) | _ => none)
  else if mnemonic = ['s', 'e', 't', 'c'] then (match ns with | [r, c, v] => some (.setc r c v) | _ => none)
  else if mnemonic = ['r', 'd', 'b'] then (match ns with | [r, b] => some (.rdb r b) | _ => none)
  else if mnemonic = ['w', 'r', 'b'] then (match ns with | [r, b, d] => some (.wrb r b d) | _ => none)
  else if mnemonic = ['c', 'l', 'e', 'a', 'r'] then (match ns with | [] => some .clear | _ => none)
  else if mnemonic = ['s', 't', 'e', 'p'] then (match ns with | [] => some .step | _ => none)
  else if mnemonic = ['s', 'e', 'e', 'd'] then (match ns with | [v] => some (.seed v) | _ => none)
  else if mnemonic = ['r', 'e', 's', 'e', 'e', 'd'] then (match ns with | [] => some .reseed | _ => none)
  else if mnemonic = ['r', 'e', 's', 'e', 'e', 'd', '.', 't'] then
    (match ns with | [] => some .reseedT | _ => none)
  else if mnemonic = ['l', 'i', 'v', 'e'] then (match ns with | [r, c] => some (.live r c) | _ => none)
  else if mnemonic = ['k', 'i', 'l', 'l'] then (match ns with | [r, c] => some (.kill r c) | _ => none)
  else if mnemonic = ['w', 'r', 'r', 'o', 'w'] then
    (match ns with
      | [r, x0, x1, x2, x3, x4, x5, x6, x7] => some (.wrrow r x0 x1 x2 x3 x4 x5 x6 x7)
      | _ => none)
  else if mnemonic = ['r', 'd', 'f', 'r', 'a', 'm', 'e'] then (match ns with | [] => some .rdframe | _ => none)
  else if mnemonic = ['g', 'e', 'n', 'e', 'r', 'a', 't', 'i', 'o', 'n'] then
    (match ns with | [] => some .generation | _ => none)
  else none

/-- The line a text spells (R89): a mnemonic, then its operands separated by commas. Blanks may stand around each. -/
def parseLine (text : List Char) : Option AsmLine :=
  let body := trim text
  let mnemonic := (body.takeWhile (· ≠ ' ')).map lower
  let rest := trim (body.dropWhile (· ≠ ' '))
  if mnemonic = ['r', 'd', 'r', 'e', 'g'] then (parseRegName (rest.map lower)).map .rdreg
  else
    let operands := if rest = [] then [] else (splitAt ',' rest).map trim
    (operands.mapM parseNumber).bind (lineOf mnemonic)

end Sys2Proof.Machine
end

