-- ==== Sys2Proof/Safety.lean ====
section
/-! DEFINITION. The terms claims are stated in: the invariant a reachable state meets, what a safe run is, command sequences,
the host's port discipline, and the grid patterns and symmetries of the automaton. -/

namespace Sys2Proof.Machine

/-- What every state reached from reset meets. -/
structure State.Inv (s : State) : Prop where
  /-- The grid memory is in its canonical form. -/
  memoryCanonical : s.mem.wf
  /-- R36: out of UNINIT every byte of the current buffer has been written since reset. -/
  currentWritten : s.phase ≠ .uninit → s.mem.written s.cur = true
  /-- R215: no command records ERR_INVARIANT. -/
  noInvariantError : s.err ≠ .invariant
  /-- R27, R35, R214: in UNINIT nothing but STATUS.ERR has left its reset value. -/
  uninitAsReset : s.phase = .uninit →
    s.mem = [] ∧ s.cur = 0 ∧ s.seed = 0 ∧ s.prngState = 0 ∧ s.gen = 0 ∧ s.rs = false
  /-- R27, R28: in SEEDED the generation counter is 0. -/
  seededGenZero : s.phase = .seeded → s.gen = 0
  /-- R26: PRNG_STATE is the state after the 1024th output from SEED, or no seed fill has happened. -/
  prngFollowsSeed : (s.seed = 0 ∧ s.prngState = 0) ∨ s.prngState = prngAfter Config.bytesPerGrid s.seed
  /-- R73, R211: an error response carries `rdata` 0, and an error is recorded. -/
  errorResponse : ∀ r, s.port = .responding r → r.rspErr = true → r.rdata = 0 ∧ s.err ≠ .none

/-- A run of `k` steps that ends in a state, with no fault and no refusal. -/
def RunsSafely (k : Nat) (s : State) : Prop := ∃ t, Host.Core.run Sys2Proof.core k s = .next t

/-- Go on from the state an outcome answers. -/
def andThen (o : Outcome) (f : State → Outcome) : Outcome :=
  match o with
  | .next s => f s
  | .fault e => .fault e
  | .refused e => .refused e

/-- Commands performed one after another in issue order (R62). -/
def execAll : List Instr → State → Outcome
  | [], s => .next s
  | i :: is, s => andThen (exec i s) (execAll is)

/-- The host's duty on the command port (R75, R253): while a presented command is not accepted, the signals that present it
hold at the next edge. -/
def State.hostHolds (s : State) : Prop :=
  s.pins.cmdValid = true → s.cmdReady = false →
    ∀ p ∈ s.inputs.head?, p.cmdValid = true ∧ p.cmd = s.pins.cmd ∧ p.wdata = s.pins.wdata

/-- Two states, each with a canonical memory, that differ at most in bytes of the next buffer (R24). -/
structure SameButNext (s t : State) : Prop where
  canonicalLeft : s.mem.wf
  canonicalRight : t.mem.wf
  rest : t = { s with mem := t.mem }
  current : ∀ r b, t.readByte r b = s.readByte r b

/-- Two outcomes of one kind whose states differ at most in bytes of the next buffer. -/
def OutcomesSameButNext (o p : Outcome) : Prop :=
  match o, p with
  | .next s, .next t => SameButNext s t
  | .fault e, .fault f => e = f
  | .refused e, .refused f => e = f
  | _, _ => False

/-- The six commands that need an initialised current buffer (R86, R214). -/
def needsBuffer : Instr → Bool
  | .nop => false
  | .getc _ _ => true
  | .setc _ _ _ => true
  | .rdb _ _ => true
  | .wrb _ _ _ => true
  | .clear => false
  | .step => true
  | .seed => false
  | .reseed _ => true
  | .rdreg _ => false

/-- A RESEED that reseeds in this state: unconditional, or conditional with the trigger signal 1 (R27, R183). -/
def reseedEffective (cond : Bool) (s : State) : Bool := !cond || s.pins.trigger

/-! ### Grids -/

/-- A grid moved by `dr` rows down and `dc` columns to the right on the torus. -/
def shiftGrid (dr : Row) (dc : Col) (g : Grid) : Grid := fun r c => g (r - dr) (c - dc)

/-- The all-dead grid (R158). -/
def deadGrid : Grid := fun _ _ => false

/-- The all-live grid (R136, R150). -/
def liveGrid : Grid := fun _ _ => true

/-- The grid whose live cells are exactly those listed. -/
def gridOf (cells : List (Row × Col)) : Grid := fun r c => decide ((r, c) ∈ cells)

/-- A horizontal blinker with its middle at `(r, c)` (R159). -/
def horizontalBlinker (r : Row) (c : Col) : Grid := gridOf [(r, west c), (r, c), (r, east c)]

/-- A vertical blinker with its middle at `(r, c)` (R159). -/
def verticalBlinker (r : Row) (c : Col) : Grid := gridOf [(up r, c), (r, c), (down r, c)]

/-- A 2 x 2 block with its top left cell at `(r, c)` (R159). -/
def block (r : Row) (c : Col) : Grid := gridOf [(r, c), (r, east c), (down r, c), (down r, east c)]

end Sys2Proof.Machine
end

