-- ==== Sys2Proof/Certificates/Slice0/Obligations.lean ====
section
/-! DEFINITION. The statements for the provers. Each docstring names the rule of the spec it formalises. -/

open Sys2Proof Sys2Proof.Machine

/-! ### Encoding and decoding -/

/-- R76 to R85: decoding the word of a well-formed command gives the command back, with every operand value. -/
def Obligations.DecodeOfEncode : Prop :=
  ∀ i : Instr, i.wellFormed = true → decode (encode i) = some i

/-- R85, R88: a legal word has one meaning and is the word of the command it decodes to. -/
def Obligations.EncodeOfDecode : Prop :=
  ∀ (w : Word) (i : Instr), decode w = some i → i.wellFormed = true ∧ encode i = w

/-- R76, R85, R87 (a), (b), (c): the words that decode to no command are exactly those with a reserved opcode, a 1 in a reserved
bit of their format, or a reserved RDREG selector; each format's reserved bits are written out here from R76. -/
def Obligations.IllegalWordsAreExactlyTheReserved : Prop :=
  ∀ w : Word, decode w = none ↔
    0xA ≤ w.extractLsb' 28 4 ∨
    (w.extractLsb' 28 4 ∈ [0x0#4, 0x5#4, 0x6#4, 0x7#4] ∧ w.extractLsb' 0 28 ≠ 0) ∨
    (w.extractLsb' 28 4 = 0x1 ∧ w.extractLsb' 0 15 ≠ 0) ∨
    (w.extractLsb' 28 4 = 0x2 ∧ w.extractLsb' 0 14 ≠ 0) ∨
    (w.extractLsb' 28 4 = 0x3 ∧ w.extractLsb' 0 18 ≠ 0) ∨
    (w.extractLsb' 28 4 = 0x4 ∧ w.extractLsb' 8 10 ≠ 0) ∨
    (w.extractLsb' 28 4 = 0x8 ∧ w.extractLsb' 1 27 ≠ 0) ∨
    (w.extractLsb' 28 4 = 0x9 ∧ (w.extractLsb' 4 24 ≠ 0 ∨ 3 < w.extractLsb' 0 4))

/-- R91: the spec's twelve encoding examples, in both directions. -/
def Obligations.EncodingExamples : Prop :=
  ∀ p ∈ ([(.getc 127 63, 0x1FFF8000), (.getc 0 0, 0x10000000), (.setc 0 0 true, 0x20004000),
      (.setc 10 21 true, 0x214AC000), (.setc 127 63 true, 0x2FFFC000), (.setc 40 8 false, 0x25040000),
      (.rdb 64 4, 0x38100000), (.rdb 127 7, 0x3FFC0000), (.wrb 10 2 0x0E, 0x4148000E),
      (.wrb 0 7 0x01, 0x401C0001), (.rdreg 2, 0x90000002), (.reseed true, 0x80000001)] : List (Instr × Word)),
    encode p.1 = p.2 ∧ decode p.2 = some p.1

/-- R89: the assembler refuses an operand outside its field's range, and only then. -/
def Obligations.AssemblerRefusesOutOfRange : Prop :=
  ∀ row col v byte data imm : Nat,
    ((AsmLine.getc row col).assemble = none ↔ 128 ≤ row ∨ 64 ≤ col) ∧
    ((AsmLine.setc row col v).assemble = none ↔ 128 ≤ row ∨ 64 ≤ col ∨ 2 ≤ v) ∧
    ((AsmLine.rdb row byte).assemble = none ↔ 128 ≤ row ∨ 8 ≤ byte) ∧
    ((AsmLine.wrb row byte data).assemble = none ↔ 128 ≤ row ∨ 8 ≤ byte ∨ 256 ≤ data) ∧
    ((AsmLine.seed imm).assemble = none ↔ 4294967296 ≤ imm)

/-- R89, R90: every word an assembly line or a pseudo-command stands for is a legal command. -/
def Obligations.AssembledWordsAreLegal : Prop :=
  ∀ (line : AsmLine) (ws : List PortWords), line.assemble = some ws → ∀ p ∈ ws, (decode p.1).isSome = true

/-! ### The command port, errors and reset -/

/-- R74, R75, R86: out of reset, with a command accepted and no ERR_INVARIANT recorded, a step is `exec` of the decoded
command; then the environment drives the next of its input signals, or its signals hold. That one step performs the whole
command, and how the signals come, are the model's choices (notes/assumptions/1.md, 2.md). That a command takes effect, and
`status_o` changes, as its response is presented is the model's choice (notes/assumptions/16.md). -/
def Obligations.StepPerformsTheAcceptedCommand : Prop :=
  ∀ (s : State) (i : Instr), s.pins.rstN = true → s.err ≠ .invariant → s.port = .busy → decode s.cmd = some i →
    step s = andThen (exec i s) fun t =>
      .next { t with pins := t.inputs.head?.getD t.pins, inputs := t.inputs.tail }

/-- R213, with R211 and R86: a word that matches no row of the opcode map, or is RDREG with SEL above 3, records code 0b001
if no error was recorded, responds `(0, 1)`, and changes nothing else; `advancePins` is the model's environment
(notes/assumptions/2.md). That the hidden `cmd` and `wdata` keep their values is the model's choice
(notes/assumptions/17.md). -/
def Obligations.IllegalWordRecordsErrIllegal : Prop :=
  Err.illegal.code = 0b001 ∧
  ∀ s : State, s.pins.rstN = true → s.err ≠ .invariant → s.port = .busy →
    ((∀ row ∈ opcodeRows, s.cmd &&& row.mask ≠ row.value) ∨ (s.cmd.extractLsb' 28 4 = 9 ∧ 3 < s.cmd.extractLsb' 0 4)) →
    step s = .next (State.advancePins
      { s with
        err := if s.err = .none then .illegal else s.err
        port := .responding { rdata := 0, rspErr := true } })

/-- R214, with R211: in UNINIT the six commands that need the buffer record code 0b010 if no error was recorded, respond `(0,
1)` and change nothing else (the trigger is not sampled); NOP, RDREG, CLEAR and SEED raise no error in any phase. That the
hidden `cmd` and `wdata` keep their values is the model's choice (notes/assumptions/17.md). -/
def Obligations.UninitRaisesErrUninit : Prop :=
  Err.uninit.code = 0b010 ∧
  ∀ (i : Instr) (s : State), i.wellFormed = true →
    (needsBuffer i = true → s.phase = .uninit →
      exec i s = .next
        { s with
          err := if s.err = .none then .uninit else s.err
          port := .responding { rdata := 0, rspErr := true } }) ∧
    (needsBuffer i = false →
      ∃ t v, exec i s = .next t ∧ t.err = s.err ∧ t.port = .responding { rdata := v, rspErr := false })

/-- R31, R212: a recorded error keeps its code through every step out of reset, whatever the command, legal or not; a step
with `rst_n` low clears it. -/
def Obligations.FirstErrorWinsUntilReset : Prop :=
  ∀ s t : State, step s = .next t →
    (s.pins.rstN = true → s.err ≠ .none → t.err = s.err) ∧ (s.pins.rstN = false → t.err = .none)

/-- R73, R211, R216: a command never records another code than ERR_ILLEGAL or ERR_UNINIT, and records one exactly when it responds
with `rsp_err` = 1 and no error was recorded. That ERR_INVARIANT is never recorded is R215 read as notes/assumptions/7.md says: no
command of the model raises it. -/
def Obligations.ErrorsAreRecordedWhenReported : Prop :=
  ∀ s t : State, s.port = .busy → s.pins.rstN = true → s.err = .none → step s = .next t →
    (t.err = .none ↔ ∃ v, t.port = .responding { rdata := v, rspErr := false }) ∧
    (t.err ≠ .none ↔ t.port = .responding { rdata := 0, rspErr := true }) ∧
    t.err ≠ .invariant

/-- R215: while ERR_INVARIANT is recorded, no step out of reset has a next state; only reset leaves it. The fault is how the model
represents what R215 calls unspecified (notes/assumptions/7.md). -/
def Obligations.FatalErrorLeavesOnlyByReset : Prop :=
  ∀ s : State, s.err = .invariant →
    (s.pins.rstN = true → step s = .fault .invariantViolation) ∧
    (s.pins.rstN = false → ∃ t, step s = .next t ∧ t.err = .none ∧ t.phase = .uninit)

/-- R35: what every piece of state is after reset. A grid byte has no specified value: that it then reads as none is the model's
choice (notes/assumptions/4.md). -/
def Obligations.ResetValues : Prop :=
  (∀ a, State.reset.mem.read a = none) ∧ State.reset.cur = 0 ∧ State.reset.phase = .uninit ∧
  State.reset.seed = 0x00000000 ∧ State.reset.prngState = 0x00000000 ∧ State.reset.gen = 0x00000000 ∧
  State.reset.rs = false ∧ State.reset.err.code = 0b000 ∧ State.reset.status = 0x00000000 ∧
  State.reset.cmdReady = true ∧ State.reset.rspValid = false

/-- R240, R241: with `rst_n` low nothing is ready and no response is presented, and a step leaves every piece of the block's state
at its reset value, whatever was in flight; only the environment's signals are not the block's. How reset is sampled, and the
values of the hidden latches, are the model's choices (notes/assumptions/5.md, 6.md). -/
def Obligations.ResetAbandonsEverything : Prop :=
  ∀ s : State, s.pins.rstN = false →
    s.cmdReady = false ∧ s.rspValid = false ∧
    step s = .next (State.advancePins { State.reset with port := .inReset, pins := s.pins, inputs := s.inputs })

/-- R75, R227, R240: the moves of the port out of reset when no command is in flight: release makes the core ready, a
presented command is accepted with `cmd` and `wdata` sampled together (R72), an idle core changes nothing, a response waits
until it is taken, and then the core is ready. Nothing but the fields named changes. One step for each move is the model's
choice (notes/assumptions/1.md, 2.md, 5.md). That the hidden `cmd` and `wdata` keep their values is the model's choice
(notes/assumptions/17.md). -/
def Obligations.PortMoves : Prop :=
  ∀ s : State, s.pins.rstN = true → s.err ≠ .invariant →
    (s.port = .inReset → step s = .next (State.advancePins { s with port := .ready })) ∧
    (s.port = .ready → s.pins.cmdValid = true →
      step s = .next (State.advancePins { s with cmd := s.pins.cmd, wdata := s.pins.wdata, port := .busy })) ∧
    (s.port = .ready → s.pins.cmdValid = false → step s = .next (State.advancePins s)) ∧
    (∀ r, s.port = .responding r → s.pins.rspReady = true →
      step s = .next (State.advancePins { s with port := .ready })) ∧
    (∀ r, s.port = .responding r → s.pins.rspReady = false → step s = .next (State.advancePins s))

/-- R73, R262: from a state that meets the invariant, every accepted command completes, and it presents one response, whose
`rdata` is 0 if it reports an error. That it takes one step is the model's choice (notes/assumptions/1.md). -/
def Obligations.AcceptedCommandCompletes : Prop :=
  ∀ s : State, s.Inv → s.pins.rstN = true → s.port = .busy →
    ∃ t r, step s = .next t ∧ t.port = .responding r ∧ (r.rspErr = true → r.rdata = 0)

/-- R75: with the host presenting a command and taking its response, three steps take the core from ready to ready again,
with the command performed exactly once. The number of steps is the model's choice (notes/assumptions/1.md). That the hidden
`cmd` and `wdata` keep their values is the model's choice (notes/assumptions/17.md). -/
def Obligations.HandshakePerformsOneCommand : Prop :=
  ∀ (s : State) (i : Instr), s.Inv → s.port = .ready → s.inputs = [] →
    s.pins.rstN = true → s.pins.cmdValid = true → s.pins.rspReady = true → decode s.pins.cmd = some i →
    ∃ t r, exec i { s with cmd := s.pins.cmd, wdata := s.pins.wdata, port := .busy } = .next t ∧
      t.port = .responding r ∧
      Host.Core.run Sys2Proof.core 3 s = .next { t with port := .ready }

/-- R75: `cmd_ready` is 0 from acceptance until the response has been accepted, and a command presented meanwhile is not
sampled. That the hidden `cmd` and `wdata` keep their values is the model's choice (notes/assumptions/17.md). -/
def Obligations.BusyPortSamplesNothing : Prop :=
  ∀ s t : State, s.pins.rstN = true → s.port ≠ .ready → step s = .next t →
    s.cmdReady = false ∧ t.cmd = s.cmd ∧ t.wdata = s.wdata

/-- R29: the fields of STATUS and its hardwired zeros; `status_o` mirrors it. That a command takes effect, and `status_o`
changes, as its response is presented is the model's choice (notes/assumptions/16.md). -/
def Obligations.StatusFields : Prop :=
  ∀ s : State,
    (s.status.extractLsb' 0 2 = match s.phase with | .uninit => 0b00 | .seeded => 0b01 | .evolving => 0b10) ∧
    s.status.extractLsb' 2 1 = s.cur ∧
    s.status.getLsbD 3 = s.rs ∧
    (s.status.extractLsb' 4 3 = match s.err with | .none => 0b000 | .illegal => 0b001 | .uninit => 0b010 | .invariant => 0b111) ∧
    s.status.extractLsb' 7 25 = 0 ∧
    s.statusOut = s.status

/-! ### The grid address space -/

/-- R50: every address in `[0, 2048)` names exactly one byte, at `1024*k + 8*r + b`. -/
def Obligations.GridAddressesNameBytes : Prop :=
  (∀ k r b, (gridAddr k r b).toNat = 1024 * k.toNat + 8 * r.toNat + b.toNat) ∧
  ∀ a : Nat, a < 2048 → ∃ k r b, (gridAddr k r b).toNat = a ∧
    ∀ k' r' b', (gridAddr k' r' b').toNat = a → k' = k ∧ r' = r ∧ b' = b

/-- R51: the cell at row `r`, column `c` of buffer `k` is bit `7 - c mod 8` of the byte at byte column `c / 8`; byte `b`, bit `i`
holds column `8b + 7 - i`; and no two cells of a buffer share a bit. -/
def Obligations.CellsNameBits : Prop :=
  (∀ (m : Memory) (k : BufSel) (r : Row) (c : Col),
    m.cell k r c = (m.read (1024 * k.toNat + 8 * r.toNat + c.toNat / 8)).map fun v => v.getLsbD (7 - c.toNat % 8)) ∧
  (∀ (b : ByteCol) (i : BitPos), (colOfBit b i).toNat = 8 * b.toNat + 7 - i.toNat) ∧
  ∀ (r r' : Row) (c c' : Col),
    8 * r.toNat + c.toNat / 8 = 8 * r'.toNat + c'.toNat / 8 → 7 - c.toNat % 8 = 7 - c'.toNat % 8 → r = r' ∧ c = c'

/-! ### The commands -/

/-- R200: NOP, in every phase, responds 0 and changes nothing; its word is 0x00000000, and any other word with opcode 0 is
illegal. That the hidden `cmd` and `wdata` keep their values is the model's choice (notes/assumptions/17.md). -/
def Obligations.NopDoesNothing : Prop :=
  (∀ s : State, exec .nop s = .next { s with port := .responding { rdata := 0x00000000, rspErr := false } }) ∧
  encode .nop = 0x00000000 ∧
  ∀ w : Word, w.extractLsb' 28 4 = 0 → w.extractLsb' 0 28 ≠ 0 → decode w = none

/-- R202, R32: RDREG responds with STATUS, SEED, GEN or PRNG_STATE, in every phase, and changes nothing; a selector from 4 on
raises ERR_ILLEGAL (no legal word carries one, so this form reaches no step: notes/assumptions/13.md). That the hidden `cmd`
and `wdata` keep their values is the model's choice (notes/assumptions/17.md). -/
def Obligations.RdregReturnsTheRegister : Prop :=
  ∀ s : State,
    exec (.rdreg 0) s = .next 
      { s with
        port := .responding ⟨0#25 ++ s.err.code ++ BitVec.ofBool s.rs ++ s.cur ++ s.phase.code, false⟩ } ∧
    exec (.rdreg 1) s = .next { s with port := .responding { rdata := s.seed, rspErr := false } } ∧
    exec (.rdreg 2) s = .next { s with port := .responding { rdata := s.gen, rspErr := false } } ∧
    exec (.rdreg 3) s = .next { s with port := .responding { rdata := s.prngState, rspErr := false } } ∧
    ∀ sel : BitVec 4, 4 ≤ sel → exec (.rdreg sel) s = .next
      { s with
        err := if s.err = .none then .illegal else s.err
        port := .responding { rdata := 0, rspErr := true } }

/-- R100: GETC responds with bit `7 - COL mod 8` of the byte that holds the column, zero-extended, and changes nothing. That
the hidden `cmd` and `wdata` keep their values is the model's choice (notes/assumptions/17.md). -/
def Obligations.GetcReturnsTheCell : Prop :=
  ∀ (row : Row) (col : Col) (s : State) (v : Byte), s.phase ≠ .uninit →
    s.mem.read (s.curAddr row (byteOf col)) = some v →
    exec (.getc row col) s = .next 
      { s with
        port := .responding ⟨if v.getLsbD (7 - col.toNat % 8) then 0x00000001 else 0x00000000, false⟩ }

/-- R104: RDB responds with one byte of the current buffer, zero-extended, and changes nothing. That the hidden `cmd` and
`wdata` keep their values is the model's choice (notes/assumptions/17.md). -/
def Obligations.RdbReturnsTheByte : Prop :=
  ∀ (row : Row) (byte : ByteCol) (s : State) (v : Byte), s.phase ≠ .uninit →
    s.mem.read (s.curAddr row byte) = some v →
    exec (.rdb row byte) s = .next { s with port := .responding { rdata := v.setWidth 32, rspErr := false } }

/-- R102: SETC writes one bit; the other seven bits of its byte, every other byte and every register stay. That the hidden
`cmd` and `wdata` keep their values is the model's choice (notes/assumptions/17.md). -/
def Obligations.SetcWritesOneCell : Prop :=
  ∀ (row : Row) (col : Col) (v : Bool) (s : State) (old : Byte), s.phase ≠ .uninit →
    s.mem.read (s.curAddr row (byteOf col)) = some old →
    ∃ t new, exec (.setc row col v) s = .next t ∧
      t = { s with mem := t.mem, port := .responding { rdata := 0, rspErr := false } } ∧
      t.mem.read (s.curAddr row (byteOf col)) = some new ∧
      new.getLsbD (7 - col.toNat % 8) = v ∧
      (∀ i, i ≠ 7 - col.toNat % 8 → new.getLsbD i = old.getLsbD i) ∧
      ∀ a, a ≠ s.curAddr row (byteOf col) → t.mem.read a = s.mem.read a

/-- R106: WRB writes one byte of the current buffer; every other byte and every register stays. That the hidden `cmd` and
`wdata` keep their values is the model's choice (notes/assumptions/17.md). -/
def Obligations.WrbWritesOneByte : Prop :=
  ∀ (row : Row) (byte : ByteCol) (data : Byte) (s : State), s.phase ≠ .uninit →
    ∃ t, exec (.wrb row byte data) s = .next t ∧
      t = { s with mem := t.mem, port := .responding { rdata := 0, rspErr := false } } ∧
      t.mem.read (s.curAddr row byte) = some data ∧
      ∀ a, a ≠ s.curAddr row byte → t.mem.read a = s.mem.read a

/-- R110: CLEAR, in every phase, makes every byte of the current buffer 0x00, PHASE SEEDED and GEN 0; nothing else changes.
That the hidden `cmd` and `wdata` keep their values is the model's choice (notes/assumptions/17.md). -/
def Obligations.ClearKillsEveryCell : Prop :=
  ∀ s : State, ∃ t, exec .clear s = .next t ∧
    t = { s with mem := t.mem, phase := .seeded, gen := 0, port := .responding { rdata := 0, rspErr := false } } ∧
    (∀ row byte, t.mem.read (s.curAddr row byte) = some 0x00) ∧
    ∀ a, (a < 1024 * s.cur.toNat ∨ 1024 * s.cur.toNat + 1024 ≤ a) → t.mem.read a = s.mem.read a

/-- R150 to R153: STEP writes `life` of every cell and its count, both read from the current buffer alone, into the other
buffer and makes that one current; GEN advances modulo 2^32, PHASE becomes EVOLVING, and nothing else changes. That the
hidden `cmd` and `wdata` keep their values is the model's choice (notes/assumptions/17.md). -/
def Obligations.StepComputesTheNextGeneration : Prop :=
  ∀ s : State, s.phase ≠ .uninit → s.mem.written s.cur = true →
    ∃ (g : Grid) (t : State), (∀ r c, s.curCell r c = some (g r c)) ∧
      exec .step s = .next t ∧
      t = { s with
        mem := t.mem, cur := 1 - s.cur, gen := s.gen + 1, phase := .evolving
        port := .responding { rdata := 0, rspErr := false } } ∧
      (∀ r c, t.mem.cell (1 - s.cur) r c = some (life (g r c) (count g r c))) ∧
      ∀ a, (a < 1024 * (1 - s.cur).toNat ∨ 1024 * (1 - s.cur).toNat + 1024 ≤ a) → t.mem.read a = s.mem.read a

/-- R180, R173: SEED, in every phase and for every `wdata`, stores output number `8r + b + 1` of the stream in byte `b` of
row `r` of the current buffer, leaves PRNG_STATE after the 1024th output, and sets SEED, GEN and PHASE; nothing else changes.
That the hidden `cmd` and `wdata` keep their values is the model's choice (notes/assumptions/17.md). -/
def Obligations.SeedFillsTheCurrentBuffer : Prop :=
  ∀ s : State, ∃ t, exec .seed s = .next t ∧
    t = { s with
      mem := t.mem, prngState := prngAfter 1024 s.wdata, seed := s.wdata, gen := 0, phase := .seeded
      port := .responding { rdata := 0, rspErr := false } } ∧
    (∀ row byte, t.mem.read (s.curAddr row byte) =
      some (prngByte (prngAfter (8 * row.toNat + byte.toNat + 1) s.wdata))) ∧
    ∀ a, (a < 1024 * s.cur.toNat ∨ 1024 * s.cur.toNat + 1024 ≤ a) → t.mem.read a = s.mem.read a

/-- R183, R184, R175: a RESEED that reseeds (COND 0, or the trigger 1) derives its seed from the three harvested bytes as
they stand before the fill, fills the current buffer from it, and sets SEED, PRNG_STATE, GEN, PHASE and RS; besides these
only the hidden latches of R34 change (which keep their last values: notes/assumptions/15.md). The trigger sample is the
signal at the step that performs the command (notes/assumptions/3.md). That the hidden `cmd` and `wdata` keep their values is
the model's choice (notes/assumptions/17.md). -/
def Obligations.EffectiveReseedFillsFromTheHarvest : Prop :=
  ∀ (cond : Bool) (s : State) (a b c : Byte), s.phase ≠ .uninit → (cond = false ∨ s.pins.trigger = true) →
    s.mem.read (s.curAddr 0 0) = some a → s.mem.read (s.curAddr 64 4) = some b →
    s.mem.read (s.curAddr 32 2) = some c →
    ∃ (t : State) (v : Word), exec (.reseed cond) s = .next t ∧
      v = (a.setWidth 32 <<< (b.toNat % 21)) ^^^ c.setWidth 32 ∧
      t = { s with
        mem := t.mem, prngState := prngAfter 1024 v, seed := v, gen := 0, phase := .seeded, rs := true
        trig := if cond then true else s.trig
        harvest := { shifted := a, amount := b, xor := c }
        port := .responding { rdata := 0, rspErr := false } } ∧
      (∀ row byte, t.mem.read (s.curAddr row byte) =
        some (prngByte (prngAfter (8 * row.toNat + byte.toNat + 1) v))) ∧
      ∀ x, (x < 1024 * s.cur.toNat ∨ 1024 * s.cur.toNat + 1024 ≤ x) → t.mem.read x = s.mem.read x

/-- R183, R185, R30: a conditional RESEED whose trigger sample is 0 sets RS to 0 and has no other effect but the hidden
sample (notes/assumptions/3.md, 15.md). That the hidden `cmd` and `wdata` keep their values is the model's choice
(notes/assumptions/17.md). -/
def Obligations.ReseedWithoutTriggerOnlyClearsRs : Prop :=
  ∀ s : State, s.phase ≠ .uninit → s.pins.trigger = false →
    exec (.reseed true) s = .next
      { s with trig := false, rs := false, port := .responding { rdata := 0, rspErr := false } }

/-! ### What changes a register -/

/-- R27: which command, completing, leaves which PHASE; out of reset nothing but a completing command changes it, and reset makes it
UNINIT. The code 0b11 is never produced. The trigger sample is as in notes/assumptions/3.md. -/
def Obligations.PhaseTransitions : Prop :=
  (∀ (i : Instr) (s t : State), exec i s = .next t → t.phase =
    match i with
    | .seed | .clear => .seeded
    | .step => if s.phase = .uninit then .uninit else .evolving
    | .reseed cond => if s.phase ≠ .uninit ∧ reseedEffective cond s = true then .seeded else s.phase
    | .nop | .getc _ _ | .setc _ _ _ | .rdb _ _ | .wrb _ _ _ | .rdreg _ => s.phase) ∧
  (∀ s t : State, step s = .next t → s.pins.rstN = true → (s.port ≠ .busy ∨ decode s.cmd = none) → t.phase = s.phase) ∧
  (∀ s t : State, step s = .next t → s.pins.rstN = false → t.phase = .uninit) ∧
  State.reset.phase = .uninit ∧
  Phase.uninit.code = 0b00 ∧ Phase.seeded.code = 0b01 ∧ Phase.evolving.code = 0b10 ∧ ∀ p : Phase, p.code ≠ 0b11

/-- R28: SEED, CLEAR and an effective RESEED set GEN to 0, a STEP out of UNINIT adds 1 modulo 2^32, no other command changes it. -/
def Obligations.GenerationCounter : Prop :=
  ∀ (i : Instr) (s t : State), exec i s = .next t → t.gen.toNat =
    match i with
    | .seed | .clear => 0
    | .step => if s.phase = .uninit then s.gen.toNat else (s.gen.toNat + 1) % 2 ^ 32
    | .reseed cond => if s.phase ≠ .uninit ∧ reseedEffective cond s = true then 0 else s.gen.toNat
    | .nop | .getc _ _ | .setc _ _ _ | .rdb _ _ | .wrb _ _ _ | .rdreg _ => s.gen.toNat

/-- R23, R151: only STEP writes CUR, and it inverts it; a STEP that raises ERR_UNINIT leaves it. -/
def Obligations.OnlyStepWritesCur : Prop :=
  ∀ (i : Instr) (s t : State), exec i s = .next t →
    t.cur = if i = .step ∧ s.phase ≠ .uninit then 1 - s.cur else s.cur

/-- R30: STATUS.RS after a RESEED is 1 if it was unconditional and the trigger sample if it was conditional; a RESEED that raises an
error and every other command leave it. The sample is the signal at the step that performs the command
(notes/assumptions/3.md). -/
def Obligations.ReseededFlag : Prop :=
  ∀ (i : Instr) (s t : State), exec i s = .next t → t.rs =
    match i with
    | .reseed cond => if s.phase = .uninit then s.rs else if cond then s.pins.trigger else true
    | .nop | .getc _ _ | .setc _ _ _ | .rdb _ _ | .wrb _ _ _ | .clear | .step | .seed | .rdreg _ => s.rs

/-- R25, R26: SEED and PRNG_STATE change only by SEED and by an effective RESEED. -/
def Obligations.SeedRegistersWrittenOnlyBySeeding : Prop :=
  ∀ (i : Instr) (s t : State), exec i s = .next t → (t.seed ≠ s.seed ∨ t.prngState ≠ s.prngState) →
    i = .seed ∨ ∃ cond, i = .reseed cond ∧ s.phase ≠ .uninit ∧ reseedEffective cond s = true

/-- R72: `wdata` is sampled with `cmd` when the command is accepted; every command but SEED ignores it whatever its value,
and SEED takes every value without error. That the hidden `cmd` and `wdata` keep their values is the model's choice
(notes/assumptions/17.md). -/
def Obligations.OnlySeedReadsWdata : Prop :=
  (∀ s : State, s.pins.rstN = true → s.err ≠ .invariant → s.port = .ready → s.pins.cmdValid = true →
    ∃ t, step s = .next t ∧ t.cmd = s.pins.cmd ∧ t.wdata = s.pins.wdata) ∧
  (∀ (i : Instr) (s : State) (v : Word), i ≠ .seed →
    exec i { s with wdata := v } = andThen (exec i s) fun t => .next { t with wdata := v }) ∧
  ∀ (s : State) (v : Word), ∃ t, exec .seed { s with wdata := v } = .next t ∧ t.seed = v ∧ t.err = s.err

/-- R71, R185: only a conditional RESEED in a phase other than UNINIT reads the trigger signal. -/
def Obligations.OnlyConditionalReseedReadsTrigger : Prop :=
  ∀ (i : Instr) (s : State) (b : Bool), (i ≠ .reseed true ∨ s.phase = .uninit) →
    exec i { s with pins := { s.pins with trigger := b } } =
      andThen (exec i s) fun t => .next { t with pins := { t.pins with trigger := b } }

/-- R59, R101: GETC, RDB and RDREG (and NOP) change nothing but the response they present and, where they raise an error,
STATUS.ERR; repeated, they do the same again. That the hidden `cmd` and `wdata` keep their values is the model's choice
(notes/assumptions/17.md). -/
def Obligations.ReadsHaveNoSideEffect : Prop :=
  ∀ (row : Row) (col : Col) (byte : ByteCol) (sel : BitVec 4) (i : Instr) (s t : State),
    i ∈ [.nop, .getc row col, .rdb row byte, .rdreg sel] → exec i s = .next t →
    t = { s with err := t.err, port := t.port } ∧ exec i t = .next t

/-- R59: SETC, WRB, CLEAR and SEED are idempotent: repeated with the same operands they leave the same state. The repeated
SEED takes its operand from `wdata`, which is the same because the model keeps it after completion, the model's choice
(notes/assumptions/17.md). -/
def Obligations.WritesAreIdempotent : Prop :=
  ∀ (row : Row) (col : Col) (v : Bool) (byte : ByteCol) (data : Byte) (i : Instr) (s t : State), s.mem.wf →
    i ∈ [.setc row col v, .wrb row byte data, .clear, .seed] → exec i s = .next t → exec i t = .next t

/-- R107: WRB leaves the state that the eight SETC of its bits leave. -/
def Obligations.WrbEqualsEightSetcs : Prop :=
  ∀ (row : Row) (byte : ByteCol) (v : Byte) (s : State), s.Inv → s.phase ≠ .uninit →
    execAll ([7, 6, 5, 4, 3, 2, 1, 0].map fun i => .setc row (colOfBit byte (BitVec.ofNat 3 i)) (v.getLsbD i)) s =
      exec (.wrb row byte v) s

/-- R105, R53: the `n`-th read of the frame readout responds with frame byte `n` of the current buffer and changes nothing
else. That the hidden `cmd` and `wdata` keep their values is the model's choice (notes/assumptions/17.md). -/
def Obligations.FrameReadout : Prop :=
  ∀ (s : State) (n : Nat) (i : Instr), s.Inv → s.phase ≠ .uninit → readFrame[n]? = some i →
    ∃ v : Byte, s.mem.read (1024 * s.cur.toNat + n) = some v ∧
      exec i s = .next { s with port := .responding { rdata := v.setWidth 32, rspErr := false } }

/-! ### The neighbour counter and the life rule -/

/-- R152: the life rule and its table over `n` = 0 to 8. -/
def Obligations.LifeRule : Prop :=
  (∀ a n, life a n = true ↔ (n = 3 ∨ (a = true ∧ n = 2))) ∧
  (List.range 9).map (life false) = [false, false, false, true, false, false, false, false, false] ∧
  (List.range 9).map (life true) = [false, false, true, true, false, false, false, false, false]

/-- R133: with `c = 8b + 7 - i`, the byte and bit moves of R132 are column -1 and +1 modulo 64. -/
def Obligations.BitMovesAreColumnMoves : Prop :=
  ∀ (b : ByteCol) (i : BitPos),
    (colOfBit b i).toNat = 8 * b.toNat + 7 - i.toNat ∧
    colOfBit (left b i).1 (left b i).2 = west (colOfBit b i) ∧
    colOfBit (right b i).1 (right b i).2 = east (colOfBit b i) ∧
    (west (colOfBit b i)).toNat = ((colOfBit b i).toNat + 63) % 64 ∧
    (east (colOfBit b i)).toNat = ((colOfBit b i).toNat + 1) % 64

/-- R136: the eight neighbours are distinct and none is the cell itself, every count is at most 8, an all-live grid counts 8
everywhere, and the neighbour relation is symmetric. -/
def Obligations.EightDistinctNeighbours : Prop :=
  (∀ r c, (neighbours r c).length = 8 ∧ (neighbours r c).Nodup ∧ (r, c) ∉ neighbours r c) ∧
  (∀ g r c, count g r c ≤ 8) ∧ (∀ r c, count liveGrid r c = 8) ∧
  ∀ r c r' c', (r', c') ∈ neighbours r c ↔ (r, c) ∈ neighbours r' c'

/-- R54, R137: the row words hold the cells at `63 - c`, and the row-parallel form computes the same count. -/
def Obligations.RowParallelCountAgrees : Prop :=
  ∀ (g : Grid) (r : Row) (c : Col),
    (rowWord g r).getLsbD (63 - c.toNat) = g r c ∧
    count g r c = countParallel (rowWord g (up r)) (rowWord g r) (rowWord g (down r)) (63 - c.toNat)

/-- R140: the torus is full and symmetric on both axes: moving a grid by any number of rows and columns and stepping it is stepping
it and moving the result. -/
def Obligations.StepIsTranslationInvariant : Prop :=
  ∀ (dr : Row) (dc : Col) (g : Grid), stepGrid (shiftGrid dr dc g) = shiftGrid dr dc (stepGrid g)

/-- R158: every count of an all-dead grid is 0, `life(0, 0)` = 0, and STEP of an all-dead current buffer gives an all-dead
current buffer. -/
def Obligations.AllDeadFixedPoint : Prop :=
  (∀ r c, count deadGrid r c = 0) ∧ life false 0 = false ∧
  ∀ s : State, s.mem.wf → s.phase ≠ .uninit → (∀ r b, s.readByte r b = some 0x00) →
    ∃ t, exec .step s = .next t ∧ ∀ r b, t.readByte r b = some 0x00

/-- R159: a 2 x 2 block is unchanged by a step and a blinker has period 2, anywhere on the torus. -/
def Obligations.BlockAndBlinker : Prop :=
  ∀ (r : Row) (c : Col),
    stepGrid (block r c) = block r c ∧
    stepGrid (horizontalBlinker r c) = verticalBlinker r c ∧
    stepGrid (stepGrid (horizontalBlinker r c)) = horizontalBlinker r c

/-- R155, R156, R28, R151: `n` STEPs in a row leave the current buffer at the `n`-fold `stepGrid` of its grid, GEN advanced by `n`
modulo 2^32, and CUR inverted `n` times; SEED, PRNG_STATE, RS (R150) and ERR (R212) stay. -/
def Obligations.StepsIterateStepGrid : Prop :=
  ∀ (n : Nat) (s : State) (g : Grid), s.phase ≠ .uninit → s.mem.grid s.cur = some g →
    ∃ t, execAll (List.replicate n .step) s = .next t ∧
      t.mem.grid t.cur = some (stepGrid^[n] g) ∧
      t.gen = s.gen + BitVec.ofNat 32 n ∧
      t.cur = s.cur + BitVec.ofNat 1 n ∧
      t.seed = s.seed ∧ t.prngState = s.prngState ∧ t.rs = s.rs ∧ t.err = s.err

/-! ### The reseeder -/

/-- R172: the first outputs of the stream from the seeds 0 and 1. -/
def Obligations.FirstStreamOutputs : Prop :=
  [1, 2, 3, 4].map (fun n => prngAfter n 0x00000000) = [0x3C6EF35F, 0x47502932, 0xD1CCF6E9, 0xAAF95334] ∧
  prngBytes 4 0x00000000 = [0x3C, 0x47, 0xD1, 0xAA] ∧
  [1, 2, 3, 4].map (fun n => prngAfter n 0x00000001) = [0x3C88596C, 0x5E8885DB, 0x8116017E, 0xB4733AC5] ∧
  prngBytes 4 0x00000001 = [0x3C, 0x5E, 0x81, 0xB4]

/-- R177: the derivation loses no bit of A, every derived seed is below 2^28, and the shift corners. -/
def Obligations.DerivedSeedBounds : Prop :=
  (∀ h : Harvest, h.amount.toNat % 21 ≤ 20 ∧
    (h.shifted.setWidth 32 <<< (h.amount.toNat % 21)).toNat = h.shifted.toNat * 2 ^ (h.amount.toNat % 21) ∧
    h.shifted.toNat * 2 ^ (h.amount.toNat % 21) ≤ 0x0FF00000 ∧
    (deriveSeed h).toNat < 2 ^ 28 ∧ (deriveSeed h).extractLsb' 28 4 = 0 ∧
    (h.amount.toNat % 21 = 0 → deriveSeed h = (h.shifted ^^^ h.xor).setWidth 32)) ∧
  ∀ b : Byte,
    (b.toNat % 21 = 0 ↔ b.toNat ∈ [0, 21, 42, 63, 84, 105, 126, 147, 168, 189, 210, 231, 252]) ∧
    (b.toNat % 21 = 20 ↔ b.toNat ∈ [20, 41, 62, 83, 104, 125, 146, 167, 188, 209, 230, 251]) ∧
    (b.toNat = 255 → b.toNat % 21 = 3)

/-- R178, R186: two states whose current buffers agree in the three harvested bytes, and that both reseed, reach the same SEED,
PRNG_STATE and current buffer. -/
def Obligations.ReseedDependsOnTheHarvestOnly : Prop :=
  ∀ (s t : State), s.Inv → t.Inv → s.phase ≠ .uninit → t.phase ≠ .uninit →
    s.readByte 0 0 = t.readByte 0 0 → s.readByte 64 4 = t.readByte 64 4 → s.readByte 32 2 = t.readByte 32 2 →
    ∃ s' t', exec (.reseed false) s = .next s' ∧ exec (.reseed false) t = .next t' ∧
      s'.seed = t'.seed ∧ s'.prngState = t'.prngState ∧ ∀ r b, s'.readByte r b = t'.readByte r b

/-! ### The whole machine -/

/-- R35, R36: the state after reset meets the invariant. -/
def Obligations.ResetMeetsTheInvariant : Prop := State.reset.Inv

/-- R36 and the rules named at the fields of `State.Inv`: every step keeps the invariant, from every state that meets it. -/
def Obligations.StepKeepsTheInvariant : Prop :=
  ∀ s t : State, s.Inv → step s = .next t → t.Inv

/-- R210, R36: from a state that meets the invariant no run of any length faults or refuses, whatever the environment drives. -/
def Obligations.RunsFromTheInvariantAreSafe : Prop :=
  ∀ (k : Nat) (s : State), s.Inv → RunsSafely k s

/-- R24: the next buffer is unobservable: two states that differ only in its bytes give, for every command, outcomes that differ only
in the bytes of the buffer that is next after it, with the same response and the same registers. (The current buffers agree in which bytes
have a specified value: notes/assumptions/4.md.) -/
def Obligations.NextBufferIsUnobservable : Prop :=
  ∀ (i : Instr) (s t : State), SameButNext s t → OutcomesSameButNext (exec i s) (exec i t)

/-- R75, R203, R257 (c): between completions nothing of the block's architectural state changes: a step out of reset that
performs no command leaves the grid, every register and STATUS as they are. Where the signals of the next edge have `rst_n`
low, that `status_o` still shows the old STATUS is the model's choice (notes/assumptions/11.md). That a command takes effect,
and `status_o` changes, as its response is presented is the model's choice (notes/assumptions/16.md). -/
def Obligations.OnlyCompletingCommandsChangeState : Prop :=
  ∀ s t : State, step s = .next t → s.pins.rstN = true → s.port ≠ .busy →
    t = { s with cmd := t.cmd, wdata := t.wdata, port := t.port, pins := t.pins, inputs := t.inputs } ∧
    t.statusOut = s.statusOut

/-- The frame of the hidden state (R34) and of the environment: no command changes the accepted command, its operand, or any
input signal; only a RESEED writes the trigger sample and the harvest latch. That these latches keep their values is the
model's choice (notes/assumptions/15.md). That the hidden `cmd` and `wdata` keep their values is the model's choice
(notes/assumptions/17.md). -/
def Obligations.CommandsLeaveThePortInputs : Prop :=
  ∀ (i : Instr) (s t : State), exec i s = .next t →
    t.cmd = s.cmd ∧ t.wdata = s.wdata ∧ t.pins = s.pins ∧ t.inputs = s.inputs ∧
    ((∀ cond, i ≠ .reseed cond) → t.trig = s.trig ∧ t.harvest = s.harvest)
end

