-- ==== Sys2Proof/Laws/Decode.lean ====
section
/-! SUPPORT. The laws of command words: a masked comparison field by field, and for every row of the opcode map which fields of a
word it fixes (R76, R85). -/

namespace Sys2Proof

/-! ### Masks, field by field -/

/-- A word is its top bits followed by its low bits. -/
theorem append_extractLsb' {k n : Nat} (w : BitVec (k + n)) : w.extractLsb' n k ++ w.extractLsb' 0 n = w := by
  ext i hi
  simp only [BitVec.getElem_append, BitVec.getElem_extractLsb']
  split
  · simp [BitVec.getLsbD_eq_getElem hi]
  · rw [show n + (i - n) = i by omega, BitVec.getLsbD_eq_getElem hi]

@[simp] theorem extractLsb'_append_high {k n : Nat} (a : BitVec k) (b : BitVec n) : (a ++ b).extractLsb' n k = a := by
  ext i hi
  simp [BitVec.getLsbD_append, BitVec.getLsbD_eq_getElem hi]

@[simp] theorem extractLsb'_append_low {k n : Nat} (a : BitVec k) (b : BitVec n) : (a ++ b).extractLsb' 0 n = b := by
  ext i hi
  simp [BitVec.getLsbD_append, hi]

/-- Two words put together from parts of equal widths are equal exactly when their parts are. -/
theorem append_eq_append_iff {k n : Nat} (a c : BitVec k) (b d : BitVec n) : a ++ b = c ++ d ↔ a = c ∧ b = d := by
  refine ⟨fun h => ⟨?_, ?_⟩, fun ⟨h, h'⟩ => by rw [h, h']⟩
  · rw [← extractLsb'_append_high a b, h, extractLsb'_append_high]
  · rw [← extractLsb'_append_low a b, h, extractLsb'_append_low]

/-- A masked comparison compares the top and the low bits apart. -/
theorem and_eq_iff_of_append {k n : Nat} {w mask value : BitVec (k + n)} (m v : BitVec k) (m' v' : BitVec n)
    (hm : mask = m ++ m') (hv : value = v ++ v') :
    w &&& mask = value ↔ w.extractLsb' n k &&& m = v ∧ w.extractLsb' 0 n &&& m' = v' := by
  rw [hm, hv, ← append_eq_append_iff, ← BitVec.and_append, append_extractLsb']

/-- Low bits of low bits are low bits. -/
theorem extractLsb'_of_low {n m k : Nat} (w : BitVec n) (j : Nat) (h : j + k ≤ m) :
    (w.extractLsb' 0 m).extractLsb' j k = w.extractLsb' j k := by
  ext i hi
  simp [show j + i < m by omega]

/-! ### The rows of the opcode map -/

theorem nopRow_matches (w : Word) :
    nopRow.matchesWord w = true ↔ fieldOp w = 0x0 ∧ w.extractLsb' 0 28 = 0 := by
  unfold OpRow.matchesWord nopRow fieldOp
  rw [beq_iff_eq, and_eq_iff_of_append (BitVec.allOnes 4) 0x0 (BitVec.allOnes 28) 0 (by decide) (by decide),
    BitVec.and_allOnes, BitVec.and_allOnes]

theorem getcRow_matches (w : Word) :
    getcRow.matchesWord w = true ↔ fieldOp w = 0x1 ∧ w.extractLsb' 0 15 = 0 := by
  unfold OpRow.matchesWord getcRow fieldOp
  rw [beq_iff_eq, and_eq_iff_of_append (BitVec.allOnes 4) 0x1 (0#13 ++ BitVec.allOnes 15) 0 (by decide) (by decide),
    and_eq_iff_of_append (k := 13) (n := 15) 0#13 0#13 (BitVec.allOnes 15) 0#15 rfl (by decide), BitVec.and_allOnes,
    BitVec.and_allOnes, BitVec.and_zero, extractLsb'_of_low _ _ (by decide)]
  simp only [true_and]
  rfl

theorem setcRow_matches (w : Word) :
    setcRow.matchesWord w = true ↔ fieldOp w = 0x2 ∧ w.extractLsb' 0 14 = 0 := by
  unfold OpRow.matchesWord setcRow fieldOp
  rw [beq_iff_eq, and_eq_iff_of_append (BitVec.allOnes 4) 0x2 (0#14 ++ BitVec.allOnes 14) 0 (by decide) (by decide),
    and_eq_iff_of_append (k := 14) (n := 14) 0#14 0#14 (BitVec.allOnes 14) 0#14 rfl (by decide), BitVec.and_allOnes,
    BitVec.and_allOnes, BitVec.and_zero, extractLsb'_of_low _ _ (by decide)]
  simp only [true_and]
  rfl

theorem rdbRow_matches (w : Word) :
    rdbRow.matchesWord w = true ↔ fieldOp w = 0x3 ∧ w.extractLsb' 0 18 = 0 := by
  unfold OpRow.matchesWord rdbRow fieldOp
  rw [beq_iff_eq, and_eq_iff_of_append (BitVec.allOnes 4) 0x3 (0#10 ++ BitVec.allOnes 18) 0 (by decide) (by decide),
    and_eq_iff_of_append (k := 10) (n := 18) 0#10 0#10 (BitVec.allOnes 18) 0#18 rfl (by decide), BitVec.and_allOnes,
    BitVec.and_allOnes, BitVec.and_zero, extractLsb'_of_low _ _ (by decide)]
  simp only [true_and]
  rfl

theorem wrbRow_matches (w : Word) :
    wrbRow.matchesWord w = true ↔ fieldOp w = 0x4 ∧ w.extractLsb' 8 10 = 0 := by
  unfold OpRow.matchesWord wrbRow fieldOp
  rw [beq_iff_eq, and_eq_iff_of_append (BitVec.allOnes 4) 0x4 (0#10 ++ (BitVec.allOnes 10 ++ 0#8)) 0 (by decide) (by decide),
    and_eq_iff_of_append (k := 10) (n := 18) 0#10 0#10 (BitVec.allOnes 10 ++ 0#8) 0#18 rfl (by decide),
    and_eq_iff_of_append (k := 10) (n := 8) (BitVec.allOnes 10) 0#10 0#8 0#8 rfl (by decide), BitVec.and_allOnes,
    BitVec.and_allOnes, BitVec.and_zero, BitVec.and_zero, extractLsb'_of_low _ _ (by decide),
    extractLsb'_of_low _ _ (by decide)]
  simp only [true_and, and_true]
  rfl

theorem clearRow_matches (w : Word) :
    clearRow.matchesWord w = true ↔ fieldOp w = 0x5 ∧ w.extractLsb' 0 28 = 0 := by
  unfold OpRow.matchesWord clearRow fieldOp
  rw [beq_iff_eq, and_eq_iff_of_append (BitVec.allOnes 4) 0x5 (BitVec.allOnes 28) 0 (by decide) (by decide),
    BitVec.and_allOnes, BitVec.and_allOnes]

theorem stepRow_matches (w : Word) :
    stepRow.matchesWord w = true ↔ fieldOp w = 0x6 ∧ w.extractLsb' 0 28 = 0 := by
  unfold OpRow.matchesWord stepRow fieldOp
  rw [beq_iff_eq, and_eq_iff_of_append (BitVec.allOnes 4) 0x6 (BitVec.allOnes 28) 0 (by decide) (by decide),
    BitVec.and_allOnes, BitVec.and_allOnes]

theorem seedRow_matches (w : Word) :
    seedRow.matchesWord w = true ↔ fieldOp w = 0x7 ∧ w.extractLsb' 0 28 = 0 := by
  unfold OpRow.matchesWord seedRow fieldOp
  rw [beq_iff_eq, and_eq_iff_of_append (BitVec.allOnes 4) 0x7 (BitVec.allOnes 28) 0 (by decide) (by decide),
    BitVec.and_allOnes, BitVec.and_allOnes]

theorem reseedRow_matches (w : Word) :
    reseedRow.matchesWord w = true ↔ fieldOp w = 0x8 ∧ w.extractLsb' 1 27 = 0 := by
  unfold OpRow.matchesWord reseedRow fieldOp
  rw [beq_iff_eq, and_eq_iff_of_append (BitVec.allOnes 4) 0x8 (BitVec.allOnes 27 ++ 0#1) 0 (by decide) (by decide),
    and_eq_iff_of_append (k := 27) (n := 1) (BitVec.allOnes 27) 0#27 0#1 0#1 rfl (by decide), BitVec.and_allOnes,
    BitVec.and_allOnes, BitVec.and_zero, extractLsb'_of_low _ _ (by decide)]
  simp only [and_true]
  rfl

theorem rdregRow_matches (w : Word) :
    rdregRow.matchesWord w = true ↔ fieldOp w = 0x9 ∧ w.extractLsb' 4 24 = 0 := by
  unfold OpRow.matchesWord rdregRow fieldOp
  rw [beq_iff_eq, and_eq_iff_of_append (BitVec.allOnes 4) 0x9 (BitVec.allOnes 24 ++ 0#4) 0 (by decide) (by decide),
    and_eq_iff_of_append (k := 24) (n := 4) (BitVec.allOnes 24) 0#24 0#4 0#4 rfl (by decide), BitVec.and_allOnes,
    BitVec.and_allOnes, BitVec.and_zero, extractLsb'_of_low _ _ (by decide)]
  simp only [and_true]
  rfl

end Sys2Proof
end

