-- ==== Sys2Proof/Laws/Memory.lean ====
section
/-! SUPPORT. The laws of the grid memory: reads after the byte write and the whole-buffer write, the canonical form they keep,
and when a buffer is written in full. -/

namespace Sys2Proof.Machine

@[simp] theorem Memory.read_nil (a : Nat) : Memory.read [] a = none := rfl

theorem Memory.read_cons (x : Nat) (v : Byte) (m : Memory) (a : Nat) :
    Memory.read ((x, v) :: m) a = if a = x then some v else Memory.read m a := rfl

theorem Memory.read_append (m n : Memory) (a : Nat) :
    Memory.read (m ++ n) a = (Memory.read m a).or (Memory.read n a) := by
  induction m with
  | nil => rfl
  | cons x m ih =>
    obtain ⟨x, v⟩ := x
    simp only [List.cons_append, Memory.read_cons, ih]
    split <;> simp

/-- A filter on addresses keeps the reads at the addresses it keeps and loses the others. -/
theorem Memory.read_filter (m : Memory) (p : Nat → Bool) (a : Nat) :
    Memory.read (m.filter fun x => p x.1) a = if p a then Memory.read m a else none := by
  induction m with
  | nil => simp
  | cons x m ih =>
    obtain ⟨x, v⟩ := x
    by_cases hx : p x <;> by_cases ha : a = x <;>
      simp_all [Memory.read_cons]

theorem Memory.read_isSome_iff (m : Memory) (a : Nat) :
    (Memory.read m a).isSome = true ↔ a ∈ m.map Prod.fst := by
  induction m with
  | nil => simp
  | cons x m ih =>
    obtain ⟨x, v⟩ := x
    by_cases h : a = x <;> simp_all [Memory.read_cons]

/-! ### One byte -/

@[simp] theorem Memory.read_write_same (m : Memory) (a : Nat) (v : Byte) :
    (Memory.write m a v).read a = some v := by
  induction m with
  | nil => simp [Memory.write, Memory.read_cons]
  | cons x m ih =>
    obtain ⟨x, w⟩ := x
    unfold Memory.write
    split
    · simp [Memory.read_cons]
    · split
      · simp [Memory.read_cons]
      · simp [Memory.read_cons, *]

theorem Memory.read_write_other (m : Memory) {a b : Nat} (v : Byte) (h : b ≠ a) :
    (Memory.write m a v).read b = Memory.read m b := by
  induction m with
  | nil => simp [Memory.write, Memory.read_cons, h]
  | cons x m ih =>
    obtain ⟨x, w⟩ := x
    unfold Memory.write
    split
    · simp [Memory.read_cons, h]
    · split
      · subst x; simp [Memory.read_cons, h]
      · simp [Memory.read_cons, ih]

/-- What a byte write does to every read. -/
theorem Memory.read_write (m : Memory) (a b : Nat) (v : Byte) :
    (Memory.write m a v).read b = if b = a then some v else Memory.read m b := by
  split
  · subst b; simp
  · exact Memory.read_write_other m v ‹_›

theorem Memory.mem_write_addr {m : Memory} {a x : Nat} {v : Byte}
    (h : x ∈ (Memory.write m a v).map Prod.fst) : x = a ∨ x ∈ m.map Prod.fst := by
  rw [← Memory.read_isSome_iff, Memory.read_write] at h
  split at h
  · exact .inl ‹_›
  · exact .inr ((Memory.read_isSome_iff m x).1 h)

/-- The byte write keeps the canonical form. -/
theorem Memory.wf_write {m : Memory} {a : Nat} {v : Byte} (h : m.wf) (ha : a < Config.gridSpace) :
    (Memory.write m a v).wf := by
  obtain ⟨hp, hb⟩ := h
  refine ⟨?_, fun x hx => ?_⟩
  · clear hb
    induction m with
    | nil => simp [Memory.write]
    | cons x m ih =>
      obtain ⟨x, w⟩ := x
      have hp' := List.pairwise_cons.1 (show (x :: m.map Prod.fst).Pairwise (· < ·) from hp)
      unfold Memory.write
      split
      · rename_i hax
        simp only [List.map_cons, List.pairwise_cons] at hp ⊢
        refine ⟨fun y hy => ?_, hp⟩
        rcases List.mem_cons.1 hy with rfl | hy
        · exact hax
        · exact lt_trans hax (hp'.1 y hy)
      · split
        · subst a; simpa using hp
        · simp only [List.map_cons, List.pairwise_cons]
          refine ⟨fun y hy => ?_, ih hp'.2⟩
          rcases Memory.mem_write_addr hy with rfl | hy
          · omega
          · exact hp'.1 y hy
  · have : x.1 ∈ (Memory.write m a v).map Prod.fst := List.mem_map_of_mem hx
    rcases Memory.mem_write_addr this with h | h
    · omega
    · obtain ⟨y, hy, hyx⟩ := List.mem_map.1 h
      rw [← hyx]; exact hb y hy

/-! ### A whole buffer -/

theorem inBuffer_iff (k : BufSel) (a : Nat) :
    inBuffer k a = true ↔ 1024 * k.toNat ≤ a ∧ a < 1024 * k.toNat + 1024 := by
  unfold inBuffer
  rw [Bool.and_eq_true, decide_eq_true_eq, decide_eq_true_eq]
  exact Iff.rfl

/-- The two buffers share no address (R50). -/
theorem inBuffer_disjoint {j k : BufSel} (h : j ≠ k) {a : Nat} (ha : inBuffer j a = true) : inBuffer k a = false := by
  have hne : j.toNat ≠ k.toNat := fun e => h (BitVec.eq_of_toNat_eq e)
  rw [inBuffer_iff] at ha
  rw [Bool.eq_false_iff, ne_eq, inBuffer_iff]
  omega

@[simp] theorem cellsFrom_addrs (a : Nat) (vs : List Byte) :
    (cellsFrom a vs).map Prod.fst = List.range' a vs.length := by
  induction vs generalizing a with
  | nil => rfl
  | cons v vs ih => simp [cellsFrom, ih, List.range'_succ]

theorem read_cellsFrom (a b : Nat) (vs : List Byte) :
    Memory.read (cellsFrom a vs) b = if a ≤ b then vs[b - a]? else none := by
  induction vs generalizing a with
  | nil => simp [cellsFrom]
  | cons v vs ih =>
    rw [cellsFrom, Memory.read_cons, ih]
    by_cases h1 : b = a
    · subst b; simp
    · by_cases h2 : a ≤ b
      · obtain ⟨d, rfl⟩ : ∃ d, b = a + 1 + d := ⟨b - (a + 1), by omega⟩
        simp only [h1, h2, if_false, if_true, show a + 1 ≤ a + 1 + d by omega,
          show a + 1 + d - (a + 1) = d by omega, show a + 1 + d - a = d + 1 by omega,
          List.getElem?_cons_succ]
      · simp [h1, h2, show ¬ a + 1 ≤ b by omega]

/-- What a whole-buffer write does to every read. -/
theorem Memory.read_fill (m : Memory) (k : BufSel) (vs : List Byte) (hv : vs.length = Config.bytesPerGrid) (a : Nat) :
    (Memory.fill m k vs).read a = if inBuffer k a then vs[a - bufBase k]? else Memory.read m a := by
  unfold Memory.fill
  rw [Memory.read_append, Memory.read_append,
    Memory.read_filter m (fun x => decide (x < bufBase k)),
    Memory.read_filter m (fun x => decide (bufBase k + Config.bytesPerGrid ≤ x)), read_cellsFrom]
  by_cases h1 : bufBase k ≤ a
  · by_cases h2 : a < bufBase k + Config.bytesPerGrid
    · have h3 : a - bufBase k < vs.length := by omega
      simp [inBuffer, h1, h2, not_lt.2 h1, List.getElem?_eq_getElem h3]
    · have h3 : vs.length ≤ a - bufBase k := by omega
      simp [inBuffer, h1, h2, not_lt.2 h1, List.getElem?_eq_none h3, not_lt.1 h2]
  · have h3 : a < bufBase k := by omega
    have h4 : ¬ bufBase k + Config.bytesPerGrid ≤ a := by omega
    simp [inBuffer, h1, h3, h4]

/-- The addresses of a buffer after it is written in full. -/
theorem Memory.written_fill (m : Memory) (k : BufSel) (vs : List Byte) (hv : vs.length = Config.bytesPerGrid) :
    (Memory.fill m k vs).written k = true := by
  have hlow : ((m.filter fun x => decide (x.1 < bufBase k)).filter fun x => inBuffer k x.1) = [] := by
    rw [List.filter_filter, List.filter_eq_nil_iff]
    intro x _
    simp only [inBuffer, Bool.and_eq_true, decide_eq_true_eq, not_and]
    omega
  have hhigh : ((m.filter fun x => decide (bufBase k + Config.bytesPerGrid ≤ x.1)).filter
      fun x => inBuffer k x.1) = [] := by
    rw [List.filter_filter, List.filter_eq_nil_iff]
    intro x _
    simp only [inBuffer, Bool.and_eq_true, decide_eq_true_eq, not_and]
    omega
  have hmid : ((cellsFrom (bufBase k) vs).filter fun x => inBuffer k x.1) = cellsFrom (bufBase k) vs := by
    rw [List.filter_eq_self]
    intro x hx
    have : x.1 ∈ (cellsFrom (bufBase k) vs).map Prod.fst := List.mem_map_of_mem hx
    rw [cellsFrom_addrs, List.mem_range'_1, hv] at this
    simp [inBuffer, this.1, this.2]
  unfold Memory.written Memory.fill
  rw [List.filter_append, List.filter_append, hlow, hhigh, hmid, List.nil_append, List.append_nil,
    cellsFrom_addrs, hv]
  exact decide_eq_true rfl

/-- A write to one buffer leaves the other buffer's addresses as they were. -/
theorem Memory.written_fill_other (m : Memory) {k j : BufSel} (vs : List Byte) (hv : vs.length = Config.bytesPerGrid)
    (hkj : j ≠ k) : (Memory.fill m k vs).written j = m.written j := by
  have hne : j.toNat ≠ k.toNat := fun h => hkj (BitVec.eq_of_toNat_eq h)
  have hj := j.isLt
  have hk := k.isLt
  have hmid : ((cellsFrom (bufBase k) vs).filter fun x => inBuffer j x.1) = [] := by
    rw [List.filter_eq_nil_iff]
    intro x hx h
    have hx' : x.1 ∈ (cellsFrom (bufBase k) vs).map Prod.fst := List.mem_map_of_mem hx
    rw [cellsFrom_addrs, List.mem_range'_1, hv] at hx'
    have := inBuffer_disjoint hkj h
    simp [inBuffer, hx'.1, hx'.2] at this
  unfold Memory.written Memory.fill
  congr 1
  rw [List.filter_append, List.filter_append, hmid, List.append_nil, List.filter_filter, List.filter_filter]
  have keep : ∀ q : Nat → Bool, (∀ a, inBuffer j a = true → q a = true) →
      (m.filter fun x => inBuffer j x.1 && q x.1) = m.filter fun x => inBuffer j x.1 := by
    intro q hq
    apply List.filter_congr
    intro x _
    cases hx : inBuffer j x.1 <;> simp [hq, hx]
  have drop : ∀ q : Nat → Bool, (∀ a, inBuffer j a = true → q a = false) →
      (m.filter fun x => inBuffer j x.1 && q x.1) = [] := by
    intro q hq
    rw [List.filter_eq_nil_iff]
    intro x _
    cases hx : inBuffer j x.1 <;> simp [hq, hx]
  have hb : bufBase k = 1024 * k.toNat := rfl
  rcases Nat.lt_or_gt_of_ne hne with hlt | hgt
  · rw [keep (fun a => decide (a < bufBase k)), drop (fun a => decide (bufBase k + Config.bytesPerGrid ≤ a)),
      List.append_nil]
    all_goals
      intro a ha
      rw [inBuffer_iff] at ha
      simp only [hb, Config.bytesPerGrid, decide_eq_true_eq, decide_eq_false_iff_not]
      omega
  · rw [drop (fun a => decide (a < bufBase k)), keep (fun a => decide (bufBase k + Config.bytesPerGrid ≤ a)),
      List.nil_append]
    all_goals
      intro a ha
      rw [inBuffer_iff] at ha
      simp only [hb, Config.bytesPerGrid, decide_eq_true_eq, decide_eq_false_iff_not]
      omega

/-- The whole-buffer write keeps the canonical form. -/
theorem Memory.wf_fill {m : Memory} (k : BufSel) (vs : List Byte) (hv : vs.length = Config.bytesPerGrid) (h : m.wf) :
    (Memory.fill m k vs).wf := by
  obtain ⟨hp, hb⟩ := h
  have hk := k.isLt
  have hbase : bufBase k + Config.bytesPerGrid ≤ Config.gridSpace := by
    simp only [bufBase, Config.bytesPerGrid, Config.gridSpace]; omega
  refine ⟨?_, fun x hx => ?_⟩
  · unfold Memory.fill
    rw [List.map_append, List.map_append, cellsFrom_addrs, List.append_assoc, List.pairwise_append,
      List.pairwise_append]
    have hsub : ∀ q : Nat × Byte → Bool, ((m.filter q).map Prod.fst).Pairwise (· < ·) := fun q =>
      hp.sublist (List.filter_sublist.map Prod.fst)
    refine ⟨hsub _, ⟨List.pairwise_lt_range', hsub _, ?_⟩, ?_⟩
    · intro a ha b hb'
      simp only [List.mem_map, List.mem_filter, decide_eq_true_eq, List.mem_range'_1] at ha hb'
      obtain ⟨y, ⟨-, hy⟩, rfl⟩ := hb'
      omega
    · intro a ha b hb'
      simp only [List.mem_map, List.mem_filter, decide_eq_true_eq, List.mem_append, List.mem_range'_1] at ha hb'
      obtain ⟨y, ⟨-, hy⟩, rfl⟩ := ha
      rcases hb' with hb' | ⟨z, ⟨-, hz⟩, rfl⟩ <;> omega
  · unfold Memory.fill at hx
    rcases List.mem_append.1 hx with hx | hx
    · rcases List.mem_append.1 hx with hx | hx
      · exact hb x (List.mem_filter.1 hx).1
      · have : x.1 ∈ (cellsFrom (bufBase k) vs).map Prod.fst := List.mem_map_of_mem hx
        rw [cellsFrom_addrs, List.mem_range'_1, hv] at this
        omega
    · exact hb x (List.mem_filter.1 hx).1

/-! ### A buffer written in full -/

/-- Every address of a written buffer reads as a byte. -/
theorem Memory.read_isSome_of_written {m : Memory} {k : BufSel} (h : m.written k = true) {a : Nat}
    (ha : inBuffer k a = true) : (Memory.read m a).isSome = true := by
  have h' := of_decide_eq_true h
  have hmem : a ∈ (m.filter fun x => inBuffer k x.1).map Prod.fst := by
    rw [h', List.mem_range'_1]
    simpa [inBuffer] using ha
  have := (Memory.read_isSome_iff _ a).2 hmem
  rw [Memory.read_filter m (inBuffer k), ha] at this
  simpa using this

/-- In a canonical memory, a buffer is written in full exactly when each of its addresses reads as a byte. -/
theorem Memory.written_iff {m : Memory} (hm : m.wf) (k : BufSel) :
    m.written k = true ↔ ∀ a, inBuffer k a = true → (Memory.read m a).isSome = true := by
  refine ⟨fun h a ha => Memory.read_isSome_of_written h ha, fun h => decide_eq_true ?_⟩
  have hs : ((m.filter fun x => inBuffer k x.1).map Prod.fst).Pairwise (· < ·) :=
    hm.1.sublist (List.filter_sublist.map Prod.fst)
  refine List.Perm.eq_of_pairwise' hs List.pairwise_lt_range' ?_
  rw [List.perm_ext_iff_of_nodup (hs.imp ne_of_lt) List.nodup_range']
  intro a
  rw [← Memory.read_isSome_iff, Memory.read_filter m (inBuffer k), List.mem_range'_1]
  by_cases ha : inBuffer k a = true
  · simp only [ha, if_true, h a ha, true_iff]; simpa [inBuffer] using ha
  · simp only [ha, if_false, Option.isSome_none, Bool.false_eq_true, false_iff]
    simpa [inBuffer] using ha

/-- A byte write to a written buffer keeps it written. -/
theorem Memory.written_write {m : Memory} (hm : m.wf) {k : BufSel} {a : Nat} (v : Byte) (ha : a < Config.gridSpace)
    (h : m.written k = true) : (Memory.write m a v).written k = true := by
  rw [Memory.written_iff (Memory.wf_write hm ha)]
  intro b hb
  rw [Memory.read_write]
  split
  · rfl
  · exact Memory.read_isSome_of_written h hb

/-- Two canonical memories with the same reads are equal. -/
theorem Memory.ext_read {m n : Memory} (hm : m.wf) (hn : n.wf) (h : ∀ a, Memory.read m a = Memory.read n a) : m = n := by
  induction m generalizing n with
  | nil =>
    cases n with
    | nil => rfl
    | cons y n => obtain ⟨y, w⟩ := y; simpa [Memory.read_cons] using h y
  | cons x m ih =>
    obtain ⟨x, v⟩ := x
    cases n with
    | nil => simpa [Memory.read_cons] using h x
    | cons y n =>
      obtain ⟨y, w⟩ := y
      have hmp := List.pairwise_cons.1 (show (x :: m.map Prod.fst).Pairwise (· < ·) from hm.1)
      have hnp := List.pairwise_cons.1 (show (y :: n.map Prod.fst).Pairwise (· < ·) from hn.1)
      have hxm : Memory.read m x = none := by
        rw [← Option.not_isSome_iff_eq_none, Memory.read_isSome_iff]
        exact fun hc => lt_irrefl _ (hmp.1 x hc)
      have hyn : Memory.read n y = none := by
        rw [← Option.not_isSome_iff_eq_none, Memory.read_isSome_iff]
        exact fun hc => lt_irrefl _ (hnp.1 y hc)
      have hxy : x = y := by
        by_contra hne
        have h1 := h x
        have h2 := h y
        simp only [Memory.read_cons, if_true, hne, if_false, Ne.symm hne] at h1 h2
        have a1 : y < x := hnp.1 x ((Memory.read_isSome_iff n x).1 (by rw [← h1]; rfl))
        have a2 : x < y := hmp.1 y ((Memory.read_isSome_iff m y).1 (by rw [h2]; rfl))
        omega
      subst hxy
      have hvw : v = w := by simpa [Memory.read_cons] using h x
      subst hvw
      congr 1
      refine ih ⟨hmp.2, fun z hz => hm.2 z (List.mem_cons_of_mem _ hz)⟩
        ⟨hnp.2, fun z hz => hn.2 z (List.mem_cons_of_mem _ hz)⟩ fun a => ?_
      have := h a
      simp only [Memory.read_cons] at this
      by_cases hax : a = x
      · subst hax; rw [hxm, hyn]
      · simpa [hax] using this

/-! ### Grid addresses -/

/-- R50: `addr = 1024*k + 8*r + b`. -/
theorem gridAddr_toNat (k : BufSel) (r : Row) (b : ByteCol) :
    (gridAddr k r b).toNat = 1024 * k.toNat + 8 * r.toNat + b.toNat := by
  have hr := r.isLt
  have hb := b.isLt
  unfold gridAddr
  rw [BitVec.toNat_append, BitVec.toNat_append, ← Nat.shiftLeft_add_eq_or_of_lt hb,
    ← Nat.shiftLeft_add_eq_or_of_lt hr, Nat.shiftLeft_eq, Nat.shiftLeft_eq]
  omega

theorem gridAddr_lt (k : BufSel) (r : Row) (b : ByteCol) : (gridAddr k r b).toNat < Config.gridSpace :=
  (gridAddr k r b).isLt

/-- The address of a byte of buffer `k` lies in buffer `k`. -/
theorem inBuffer_gridAddr (k : BufSel) (r : Row) (b : ByteCol) : inBuffer k (gridAddr k r b).toNat = true := by
  have hr := r.isLt
  have hb := b.isLt
  simp only [inBuffer, bufBase, Config.bytesPerGrid, gridAddr_toNat, Bool.and_eq_true, decide_eq_true_eq]
  omega

/-- Its place in the frame is `8r + b` (R53). -/
theorem gridAddr_sub_base (k : BufSel) (r : Row) (b : ByteCol) :
    (gridAddr k r b).toNat - bufBase k = 8 * r.toNat + b.toNat := by
  simp only [gridAddr_toNat, bufBase, Config.bytesPerGrid]
  omega

/-- A byte of the filled buffer is its entry of the list, in frame order. -/
theorem Memory.read_fill_gridAddr (m : Memory) (k : BufSel) (vs : List Byte) (hv : vs.length = Config.bytesPerGrid)
    (r : Row) (b : ByteCol) :
    (Memory.fill m k vs).read (gridAddr k r b).toNat = vs[8 * r.toNat + b.toNat]? := by
  rw [Memory.read_fill m k vs hv, inBuffer_gridAddr, gridAddr_sub_base]
  rfl

/-- A byte of a written buffer has a value. -/
theorem Memory.exists_read_of_written {m : Memory} {k : BufSel} (h : m.written k = true) (r : Row) (b : ByteCol) :
    ∃ v, Memory.read m (gridAddr k r b).toNat = some v :=
  Option.isSome_iff_exists.1 (Memory.read_isSome_of_written h (inBuffer_gridAddr k r b))

end Sys2Proof.Machine
end

