-- ==== Sys2Proof/Laws/Grid.lean ====
section
/-! SUPPORT. The laws of cells and grids: columns, bytes and bits name each other (R51), a cell write changes one cell, and the
bytes of a grid hold exactly its cells. -/

namespace Sys2Proof.Machine

/-! ### Columns and bytes -/

@[simp] theorem colAt_byteOf_posOf (c : Col) : colAt (byteOf c) (posOf c) = c := by
  unfold colAt byteOf posOf
  ext i hi
  simp only [BitVec.getElem_append, BitVec.getElem_extractLsb']
  split <;> simp_all [BitVec.getLsbD_eq_getElem]

@[simp] theorem byteOf_colAt (b : ByteCol) (p : BitPos) : byteOf (colAt b p) = b := by
  unfold colAt byteOf
  ext i hi
  simp only [BitVec.getElem_extractLsb', BitVec.getLsbD_append]
  simp [BitVec.getLsbD_eq_getElem, hi]

@[simp] theorem posOf_colAt (b : ByteCol) (p : BitPos) : posOf (colAt b p) = p := by
  unfold colAt posOf
  ext i hi
  simp only [BitVec.getElem_extractLsb', BitVec.getLsbD_append]
  simp [BitVec.getLsbD_eq_getElem, hi]

/-- `colAt b p` is column `8b + p`. -/
theorem colAt_toNat (b : ByteCol) (p : BitPos) : (colAt b p).toNat = 8 * b.toNat + p.toNat := by
  have hp := p.isLt
  unfold colAt
  rw [BitVec.toNat_append, ← Nat.shiftLeft_add_eq_or_of_lt hp, Nat.shiftLeft_eq]
  omega

/-- The places of a byte are numbered from its most significant bit. -/
theorem byteCell_eq_getMsbD (v : Byte) (p : BitPos) : byteCell v p = v.getMsbD p.toNat := by
  have hp := p.isLt
  unfold byteCell bitIndex BitVec.getMsbD
  simp [show p.toNat < 8 by omega]

/-! ### One cell of a byte -/

theorem byteCell_setByteCell (old : Byte) (p q : BitPos) (v : Bool) :
    byteCell (setByteCell old p v) q = if q = p then v else byteCell old q := by
  have hp := p.isLt
  have hq := q.isLt
  unfold byteCell setByteCell
  have hi : bitIndex q < 8 := by unfold bitIndex; omega
  have hj : bitIndex p < 8 := by unfold bitIndex; omega
  by_cases h : q = p
  · subst h
    simp [hi]
  · have hne : bitIndex q ≠ bitIndex p := by
      intro e
      apply h
      apply BitVec.eq_of_toNat_eq
      unfold bitIndex at e
      omega
    rcases Nat.lt_or_gt_of_ne hne with hlt | hgt
    · simp [h, hi, hlt]
    · have h1 : ¬ bitIndex q < bitIndex p := by omega
      have h2 : bitIndex q - bitIndex p ≠ 0 := by omega
      simp [h, hi, h1, h2]

/-! ### The bytes of a grid -/

theorem byteCell_packByte (g : Grid) (r : Row) (b : ByteCol) (p : BitPos) :
    byteCell (packByte g r b) p = g r (colAt b p) := by
  have hp := p.isLt
  rw [byteCell_eq_getMsbD]
  unfold packByte
  rw [BitVec.getMsbD_ofBoolListBE]
  have hcases : ∀ x : BitVec 3, x = 0 ∨ x = 1 ∨ x = 2 ∨ x = 3 ∨ x = 4 ∨ x = 5 ∨ x = 6 ∨ x = 7 := by decide
  rcases hcases p with h | h | h | h | h | h | h | h <;> subst h <;> rfl

@[simp] theorem gridBytes_length (g : Grid) : (gridBytes g).length = Config.bytesPerGrid := by
  simp [gridBytes]

/-- Frame byte `8r + b` of a grid (R53). -/
theorem gridBytes_getElem? (g : Grid) (r : Row) (b : ByteCol) :
    (gridBytes g)[8 * r.toNat + b.toNat]? = some (packByte g r b) := by
  have hr := r.isLt
  have hb := b.isLt
  have hlt : 8 * r.toNat + b.toNat < Config.bytesPerGrid := by simp only [Config.bytesPerGrid]; omega
  have hrow : frameRow (8 * r.toNat + b.toNat) = r := by
    apply BitVec.eq_of_toNat_eq
    simp only [frameRow, BitVec.toNat_ofNat]; omega
  have hcol : frameByteCol (8 * r.toNat + b.toNat) = b := by
    apply BitVec.eq_of_toNat_eq
    simp only [frameByteCol, BitVec.toNat_ofNat]; omega
  unfold gridBytes
  rw [List.getElem?_map, List.getElem?_range hlt, Option.map_some, hrow, hcol]

/-- A buffer filled with the bytes of a grid holds exactly its cells. -/
theorem Memory.cell_fill_gridBytes (m : Memory) (k : BufSel) (g : Grid) (r : Row) (c : Col) :
    (Memory.fill m k (gridBytes g)).cell k r c = some (g r c) := by
  unfold Memory.cell
  rw [Memory.read_fill_gridAddr m k _ (gridBytes_length g), gridBytes_getElem?, Option.map_some,
    byteCell_packByte, colAt_byteOf_posOf]

/-- The grid of a written buffer, when the machine reads it, has the cells memory holds. -/
theorem Memory.cell_of_grid {m : Memory} {k : BufSel} {g : Grid} (h : m.grid k = some g) (r : Row) (c : Col) :
    m.cell k r c = some (g r c) := by
  unfold Memory.grid at h
  split at h
  · rename_i hw
    cases h
    obtain ⟨v, hv⟩ := Memory.exists_read_of_written hw r (byteOf c)
    simp [Memory.cell, hv]
  · cases h

theorem Memory.grid_isSome_iff (m : Memory) (k : BufSel) : (m.grid k).isSome = true ↔ m.written k = true := by
  unfold Memory.grid
  split <;> simp_all

/-- The grid a machine reads from a buffer filled with a grid's bytes is that grid. -/
theorem Memory.grid_fill_gridBytes (m : Memory) (k : BufSel) (g : Grid) :
    (Memory.fill m k (gridBytes g)).grid k = some g := by
  unfold Memory.grid
  rw [Memory.written_fill m k _ (gridBytes_length g), if_pos rfl]
  congr 1
  funext r c
  rw [Memory.cell_fill_gridBytes]
  rfl

/-! ### The stream and the dead grid -/

@[simp] theorem prngBytes_length (n : Nat) (p : Word) : (prngBytes n p).length = n := by
  induction n generalizing p with
  | zero => rfl
  | succ n ih => simp [prngBytes, ih]

@[simp] theorem deadBytes_length : deadBytes.length = Config.bytesPerGrid := by
  simp only [deadBytes, List.length_replicate]

theorem prngAfter_zero (p : Word) : prngAfter 0 p = p := rfl

theorem prngAfter_succ (n : Nat) (p : Word) : prngAfter (n + 1) p = prngNext (prngAfter n p) := by rw [prngAfter]

theorem prngBytes_succ (n : Nat) (p : Word) :
    prngBytes (n + 1) p = prngByte (prngNext p) :: prngBytes n (prngNext p) := by rw [prngBytes]

/-- Advancing once and then `n` times is advancing `n + 1` times. -/
theorem prngAfter_prngNext (n : Nat) (p : Word) : prngAfter n (prngNext p) = prngAfter (n + 1) p := by
  induction n with
  | zero => rw [prngAfter_zero, prngAfter_succ, prngAfter_zero]
  | succ n ih => rw [prngAfter_succ, ih, prngAfter_succ (n + 1)]

/-- Output number `n + 1` of the stream is the top byte of the state after `n + 1` advances (R171, R173). -/
theorem prngBytes_getElem? (k n : Nat) (p : Word) (h : n < k) :
    (prngBytes k p)[n]? = some (prngByte (prngAfter (n + 1) p)) := by
  induction k generalizing n p with
  | zero => omega
  | succ k ih =>
    cases n with
    | zero => rw [prngBytes_succ, List.getElem?_cons_zero, prngAfter_succ, prngAfter_zero]
    | succ n => rw [prngBytes_succ, List.getElem?_cons_succ, ih n _ (by omega), prngAfter_prngNext]

end Sys2Proof.Machine
end

