-- ==== Sys2Proof/Laws/State.lean ====
section
/-! SUPPORT. What each update of the state leaves in each field: one lemma per field per update, true by definition, so that no
proof unfolds a record update. -/

namespace Sys2Proof.Machine

@[simp] theorem State.respond_mem (s : State) (v : Word) : (s.respond v).mem = s.mem := rfl
@[simp] theorem State.respond_cur (s : State) (v : Word) : (s.respond v).cur = s.cur := rfl
@[simp] theorem State.respond_phase (s : State) (v : Word) : (s.respond v).phase = s.phase := rfl
@[simp] theorem State.respond_seed (s : State) (v : Word) : (s.respond v).seed = s.seed := rfl
@[simp] theorem State.respond_prngState (s : State) (v : Word) : (s.respond v).prngState = s.prngState := rfl
@[simp] theorem State.respond_gen (s : State) (v : Word) : (s.respond v).gen = s.gen := rfl
@[simp] theorem State.respond_rs (s : State) (v : Word) : (s.respond v).rs = s.rs := rfl
@[simp] theorem State.respond_err (s : State) (v : Word) : (s.respond v).err = s.err := rfl
@[simp] theorem State.respond_cmd (s : State) (v : Word) : (s.respond v).cmd = s.cmd := rfl
@[simp] theorem State.respond_wdata (s : State) (v : Word) : (s.respond v).wdata = s.wdata := rfl
@[simp] theorem State.respond_trig (s : State) (v : Word) : (s.respond v).trig = s.trig := rfl
@[simp] theorem State.respond_harvest (s : State) (v : Word) : (s.respond v).harvest = s.harvest := rfl
@[simp] theorem State.respond_port (s : State) (v : Word) : (s.respond v).port = .responding { rdata := v, rspErr := false } := rfl
@[simp] theorem State.respond_pins (s : State) (v : Word) : (s.respond v).pins = s.pins := rfl
@[simp] theorem State.respond_inputs (s : State) (v : Word) : (s.respond v).inputs = s.inputs := rfl

@[simp] theorem State.raise_mem (s : State) (e : Err) : (s.raise e).mem = s.mem := rfl
@[simp] theorem State.raise_cur (s : State) (e : Err) : (s.raise e).cur = s.cur := rfl
@[simp] theorem State.raise_phase (s : State) (e : Err) : (s.raise e).phase = s.phase := rfl
@[simp] theorem State.raise_seed (s : State) (e : Err) : (s.raise e).seed = s.seed := rfl
@[simp] theorem State.raise_prngState (s : State) (e : Err) : (s.raise e).prngState = s.prngState := rfl
@[simp] theorem State.raise_gen (s : State) (e : Err) : (s.raise e).gen = s.gen := rfl
@[simp] theorem State.raise_rs (s : State) (e : Err) : (s.raise e).rs = s.rs := rfl
@[simp] theorem State.raise_err (s : State) (e : Err) : (s.raise e).err = if s.err = .none then e else s.err := rfl
@[simp] theorem State.raise_cmd (s : State) (e : Err) : (s.raise e).cmd = s.cmd := rfl
@[simp] theorem State.raise_wdata (s : State) (e : Err) : (s.raise e).wdata = s.wdata := rfl
@[simp] theorem State.raise_trig (s : State) (e : Err) : (s.raise e).trig = s.trig := rfl
@[simp] theorem State.raise_harvest (s : State) (e : Err) : (s.raise e).harvest = s.harvest := rfl
@[simp] theorem State.raise_port (s : State) (e : Err) : (s.raise e).port = .responding { rdata := 0, rspErr := true } := rfl
@[simp] theorem State.raise_pins (s : State) (e : Err) : (s.raise e).pins = s.pins := rfl
@[simp] theorem State.raise_inputs (s : State) (e : Err) : (s.raise e).inputs = s.inputs := rfl

@[simp] theorem State.writeByte_mem (s : State) (r : Row) (b : ByteCol) (v : Byte) : (s.writeByte r b v).mem = s.mem.write (s.curAddr r b) v := rfl
@[simp] theorem State.writeByte_cur (s : State) (r : Row) (b : ByteCol) (v : Byte) : (s.writeByte r b v).cur = s.cur := rfl
@[simp] theorem State.writeByte_phase (s : State) (r : Row) (b : ByteCol) (v : Byte) : (s.writeByte r b v).phase = s.phase := rfl
@[simp] theorem State.writeByte_seed (s : State) (r : Row) (b : ByteCol) (v : Byte) : (s.writeByte r b v).seed = s.seed := rfl
@[simp] theorem State.writeByte_prngState (s : State) (r : Row) (b : ByteCol) (v : Byte) : (s.writeByte r b v).prngState = s.prngState := rfl
@[simp] theorem State.writeByte_gen (s : State) (r : Row) (b : ByteCol) (v : Byte) : (s.writeByte r b v).gen = s.gen := rfl
@[simp] theorem State.writeByte_rs (s : State) (r : Row) (b : ByteCol) (v : Byte) : (s.writeByte r b v).rs = s.rs := rfl
@[simp] theorem State.writeByte_err (s : State) (r : Row) (b : ByteCol) (v : Byte) : (s.writeByte r b v).err = s.err := rfl
@[simp] theorem State.writeByte_cmd (s : State) (r : Row) (b : ByteCol) (v : Byte) : (s.writeByte r b v).cmd = s.cmd := rfl
@[simp] theorem State.writeByte_wdata (s : State) (r : Row) (b : ByteCol) (v : Byte) : (s.writeByte r b v).wdata = s.wdata := rfl
@[simp] theorem State.writeByte_trig (s : State) (r : Row) (b : ByteCol) (v : Byte) : (s.writeByte r b v).trig = s.trig := rfl
@[simp] theorem State.writeByte_harvest (s : State) (r : Row) (b : ByteCol) (v : Byte) : (s.writeByte r b v).harvest = s.harvest := rfl
@[simp] theorem State.writeByte_port (s : State) (r : Row) (b : ByteCol) (v : Byte) : (s.writeByte r b v).port = s.port := rfl
@[simp] theorem State.writeByte_pins (s : State) (r : Row) (b : ByteCol) (v : Byte) : (s.writeByte r b v).pins = s.pins := rfl
@[simp] theorem State.writeByte_inputs (s : State) (r : Row) (b : ByteCol) (v : Byte) : (s.writeByte r b v).inputs = s.inputs := rfl

@[simp] theorem State.clearCurrent_mem (s : State) : (s.clearCurrent).mem = s.mem.fill s.cur deadBytes := rfl
@[simp] theorem State.clearCurrent_cur (s : State) : (s.clearCurrent).cur = s.cur := rfl
@[simp] theorem State.clearCurrent_phase (s : State) : (s.clearCurrent).phase = .seeded := rfl
@[simp] theorem State.clearCurrent_seed (s : State) : (s.clearCurrent).seed = s.seed := rfl
@[simp] theorem State.clearCurrent_prngState (s : State) : (s.clearCurrent).prngState = s.prngState := rfl
@[simp] theorem State.clearCurrent_gen (s : State) : (s.clearCurrent).gen = 0 := rfl
@[simp] theorem State.clearCurrent_rs (s : State) : (s.clearCurrent).rs = s.rs := rfl
@[simp] theorem State.clearCurrent_err (s : State) : (s.clearCurrent).err = s.err := rfl
@[simp] theorem State.clearCurrent_cmd (s : State) : (s.clearCurrent).cmd = s.cmd := rfl
@[simp] theorem State.clearCurrent_wdata (s : State) : (s.clearCurrent).wdata = s.wdata := rfl
@[simp] theorem State.clearCurrent_trig (s : State) : (s.clearCurrent).trig = s.trig := rfl
@[simp] theorem State.clearCurrent_harvest (s : State) : (s.clearCurrent).harvest = s.harvest := rfl
@[simp] theorem State.clearCurrent_port (s : State) : (s.clearCurrent).port = s.port := rfl
@[simp] theorem State.clearCurrent_pins (s : State) : (s.clearCurrent).pins = s.pins := rfl
@[simp] theorem State.clearCurrent_inputs (s : State) : (s.clearCurrent).inputs = s.inputs := rfl

@[simp] theorem State.advanceTo_mem (s : State) (g : Grid) : (s.advanceTo g).mem = s.mem.fill (~~~s.cur) (gridBytes g) := rfl
@[simp] theorem State.advanceTo_cur (s : State) (g : Grid) : (s.advanceTo g).cur = ~~~s.cur := rfl
@[simp] theorem State.advanceTo_phase (s : State) (g : Grid) : (s.advanceTo g).phase = .evolving := rfl
@[simp] theorem State.advanceTo_seed (s : State) (g : Grid) : (s.advanceTo g).seed = s.seed := rfl
@[simp] theorem State.advanceTo_prngState (s : State) (g : Grid) : (s.advanceTo g).prngState = s.prngState := rfl
@[simp] theorem State.advanceTo_gen (s : State) (g : Grid) : (s.advanceTo g).gen = s.gen + 1 := rfl
@[simp] theorem State.advanceTo_rs (s : State) (g : Grid) : (s.advanceTo g).rs = s.rs := rfl
@[simp] theorem State.advanceTo_err (s : State) (g : Grid) : (s.advanceTo g).err = s.err := rfl
@[simp] theorem State.advanceTo_cmd (s : State) (g : Grid) : (s.advanceTo g).cmd = s.cmd := rfl
@[simp] theorem State.advanceTo_wdata (s : State) (g : Grid) : (s.advanceTo g).wdata = s.wdata := rfl
@[simp] theorem State.advanceTo_trig (s : State) (g : Grid) : (s.advanceTo g).trig = s.trig := rfl
@[simp] theorem State.advanceTo_harvest (s : State) (g : Grid) : (s.advanceTo g).harvest = s.harvest := rfl
@[simp] theorem State.advanceTo_port (s : State) (g : Grid) : (s.advanceTo g).port = s.port := rfl
@[simp] theorem State.advanceTo_pins (s : State) (g : Grid) : (s.advanceTo g).pins = s.pins := rfl
@[simp] theorem State.advanceTo_inputs (s : State) (g : Grid) : (s.advanceTo g).inputs = s.inputs := rfl

@[simp] theorem State.applySeed_mem (s : State) (v : Word) : (s.applySeed v).mem = s.mem.fill s.cur (prngBytes Config.bytesPerGrid v) := by
  simp only [State.applySeed]
@[simp] theorem State.applySeed_cur (s : State) (v : Word) : (s.applySeed v).cur = s.cur := rfl
@[simp] theorem State.applySeed_phase (s : State) (v : Word) : (s.applySeed v).phase = .seeded := rfl
@[simp] theorem State.applySeed_seed (s : State) (v : Word) : (s.applySeed v).seed = v := rfl
@[simp] theorem State.applySeed_prngState (s : State) (v : Word) : (s.applySeed v).prngState = prngAfter Config.bytesPerGrid v := by
  simp only [State.applySeed]
@[simp] theorem State.applySeed_gen (s : State) (v : Word) : (s.applySeed v).gen = 0 := rfl
@[simp] theorem State.applySeed_rs (s : State) (v : Word) : (s.applySeed v).rs = s.rs := rfl
@[simp] theorem State.applySeed_err (s : State) (v : Word) : (s.applySeed v).err = s.err := rfl
@[simp] theorem State.applySeed_cmd (s : State) (v : Word) : (s.applySeed v).cmd = s.cmd := rfl
@[simp] theorem State.applySeed_wdata (s : State) (v : Word) : (s.applySeed v).wdata = s.wdata := rfl
@[simp] theorem State.applySeed_trig (s : State) (v : Word) : (s.applySeed v).trig = s.trig := rfl
@[simp] theorem State.applySeed_harvest (s : State) (v : Word) : (s.applySeed v).harvest = s.harvest := rfl
@[simp] theorem State.applySeed_port (s : State) (v : Word) : (s.applySeed v).port = s.port := rfl
@[simp] theorem State.applySeed_pins (s : State) (v : Word) : (s.applySeed v).pins = s.pins := rfl
@[simp] theorem State.applySeed_inputs (s : State) (v : Word) : (s.applySeed v).inputs = s.inputs := rfl

@[simp] theorem State.markReseeded_mem (s : State) : (s.markReseeded).mem = s.mem := rfl
@[simp] theorem State.markReseeded_cur (s : State) : (s.markReseeded).cur = s.cur := rfl
@[simp] theorem State.markReseeded_phase (s : State) : (s.markReseeded).phase = s.phase := rfl
@[simp] theorem State.markReseeded_seed (s : State) : (s.markReseeded).seed = s.seed := rfl
@[simp] theorem State.markReseeded_prngState (s : State) : (s.markReseeded).prngState = s.prngState := rfl
@[simp] theorem State.markReseeded_gen (s : State) : (s.markReseeded).gen = s.gen := rfl
@[simp] theorem State.markReseeded_rs (s : State) : (s.markReseeded).rs = true := rfl
@[simp] theorem State.markReseeded_err (s : State) : (s.markReseeded).err = s.err := rfl
@[simp] theorem State.markReseeded_cmd (s : State) : (s.markReseeded).cmd = s.cmd := rfl
@[simp] theorem State.markReseeded_wdata (s : State) : (s.markReseeded).wdata = s.wdata := rfl
@[simp] theorem State.markReseeded_trig (s : State) : (s.markReseeded).trig = s.trig := rfl
@[simp] theorem State.markReseeded_harvest (s : State) : (s.markReseeded).harvest = s.harvest := rfl
@[simp] theorem State.markReseeded_port (s : State) : (s.markReseeded).port = s.port := rfl
@[simp] theorem State.markReseeded_pins (s : State) : (s.markReseeded).pins = s.pins := rfl
@[simp] theorem State.markReseeded_inputs (s : State) : (s.markReseeded).inputs = s.inputs := rfl

@[simp] theorem State.sampleTrigger_mem (s : State) : (s.sampleTrigger).mem = s.mem := rfl
@[simp] theorem State.sampleTrigger_cur (s : State) : (s.sampleTrigger).cur = s.cur := rfl
@[simp] theorem State.sampleTrigger_phase (s : State) : (s.sampleTrigger).phase = s.phase := rfl
@[simp] theorem State.sampleTrigger_seed (s : State) : (s.sampleTrigger).seed = s.seed := rfl
@[simp] theorem State.sampleTrigger_prngState (s : State) : (s.sampleTrigger).prngState = s.prngState := rfl
@[simp] theorem State.sampleTrigger_gen (s : State) : (s.sampleTrigger).gen = s.gen := rfl
@[simp] theorem State.sampleTrigger_rs (s : State) : (s.sampleTrigger).rs = s.pins.trigger := rfl
@[simp] theorem State.sampleTrigger_err (s : State) : (s.sampleTrigger).err = s.err := rfl
@[simp] theorem State.sampleTrigger_cmd (s : State) : (s.sampleTrigger).cmd = s.cmd := rfl
@[simp] theorem State.sampleTrigger_wdata (s : State) : (s.sampleTrigger).wdata = s.wdata := rfl
@[simp] theorem State.sampleTrigger_trig (s : State) : (s.sampleTrigger).trig = s.pins.trigger := rfl
@[simp] theorem State.sampleTrigger_harvest (s : State) : (s.sampleTrigger).harvest = s.harvest := rfl
@[simp] theorem State.sampleTrigger_port (s : State) : (s.sampleTrigger).port = s.port := rfl
@[simp] theorem State.sampleTrigger_pins (s : State) : (s.sampleTrigger).pins = s.pins := rfl
@[simp] theorem State.sampleTrigger_inputs (s : State) : (s.sampleTrigger).inputs = s.inputs := rfl

@[simp] theorem State.assertReset_mem (s : State) : (s.assertReset).mem = [] := rfl
@[simp] theorem State.assertReset_cur (s : State) : (s.assertReset).cur = 0 := rfl
@[simp] theorem State.assertReset_phase (s : State) : (s.assertReset).phase = .uninit := rfl
@[simp] theorem State.assertReset_seed (s : State) : (s.assertReset).seed = 0 := rfl
@[simp] theorem State.assertReset_prngState (s : State) : (s.assertReset).prngState = 0 := rfl
@[simp] theorem State.assertReset_gen (s : State) : (s.assertReset).gen = 0 := rfl
@[simp] theorem State.assertReset_rs (s : State) : (s.assertReset).rs = false := rfl
@[simp] theorem State.assertReset_err (s : State) : (s.assertReset).err = .none := rfl
@[simp] theorem State.assertReset_cmd (s : State) : (s.assertReset).cmd = 0 := rfl
@[simp] theorem State.assertReset_wdata (s : State) : (s.assertReset).wdata = 0 := rfl
@[simp] theorem State.assertReset_trig (s : State) : (s.assertReset).trig = false := rfl
@[simp] theorem State.assertReset_harvest (s : State) : (s.assertReset).harvest = { shifted := 0, amount := 0, xor := 0 } := rfl
@[simp] theorem State.assertReset_port (s : State) : (s.assertReset).port = .inReset := rfl
@[simp] theorem State.assertReset_pins (s : State) : (s.assertReset).pins = s.pins := rfl
@[simp] theorem State.assertReset_inputs (s : State) : (s.assertReset).inputs = s.inputs := rfl

@[simp] theorem State.accept_mem (s : State) : (s.accept).mem = s.mem := rfl
@[simp] theorem State.accept_cur (s : State) : (s.accept).cur = s.cur := rfl
@[simp] theorem State.accept_phase (s : State) : (s.accept).phase = s.phase := rfl
@[simp] theorem State.accept_seed (s : State) : (s.accept).seed = s.seed := rfl
@[simp] theorem State.accept_prngState (s : State) : (s.accept).prngState = s.prngState := rfl
@[simp] theorem State.accept_gen (s : State) : (s.accept).gen = s.gen := rfl
@[simp] theorem State.accept_rs (s : State) : (s.accept).rs = s.rs := rfl
@[simp] theorem State.accept_err (s : State) : (s.accept).err = s.err := rfl
@[simp] theorem State.accept_cmd (s : State) : (s.accept).cmd = s.pins.cmd := rfl
@[simp] theorem State.accept_wdata (s : State) : (s.accept).wdata = s.pins.wdata := rfl
@[simp] theorem State.accept_trig (s : State) : (s.accept).trig = s.trig := rfl
@[simp] theorem State.accept_harvest (s : State) : (s.accept).harvest = s.harvest := rfl
@[simp] theorem State.accept_port (s : State) : (s.accept).port = .busy := rfl
@[simp] theorem State.accept_pins (s : State) : (s.accept).pins = s.pins := rfl
@[simp] theorem State.accept_inputs (s : State) : (s.accept).inputs = s.inputs := rfl

@[simp] theorem State.advancePins_mem (s : State) : s.advancePins.mem = s.mem := by
  unfold State.advancePins; split <;> rfl
@[simp] theorem State.advancePins_cur (s : State) : s.advancePins.cur = s.cur := by
  unfold State.advancePins; split <;> rfl
@[simp] theorem State.advancePins_phase (s : State) : s.advancePins.phase = s.phase := by
  unfold State.advancePins; split <;> rfl
@[simp] theorem State.advancePins_seed (s : State) : s.advancePins.seed = s.seed := by
  unfold State.advancePins; split <;> rfl
@[simp] theorem State.advancePins_prngState (s : State) : s.advancePins.prngState = s.prngState := by
  unfold State.advancePins; split <;> rfl
@[simp] theorem State.advancePins_gen (s : State) : s.advancePins.gen = s.gen := by
  unfold State.advancePins; split <;> rfl
@[simp] theorem State.advancePins_rs (s : State) : s.advancePins.rs = s.rs := by
  unfold State.advancePins; split <;> rfl
@[simp] theorem State.advancePins_err (s : State) : s.advancePins.err = s.err := by
  unfold State.advancePins; split <;> rfl
@[simp] theorem State.advancePins_cmd (s : State) : s.advancePins.cmd = s.cmd := by
  unfold State.advancePins; split <;> rfl
@[simp] theorem State.advancePins_wdata (s : State) : s.advancePins.wdata = s.wdata := by
  unfold State.advancePins; split <;> rfl
@[simp] theorem State.advancePins_trig (s : State) : s.advancePins.trig = s.trig := by
  unfold State.advancePins; split <;> rfl
@[simp] theorem State.advancePins_harvest (s : State) : s.advancePins.harvest = s.harvest := by
  unfold State.advancePins; split <;> rfl
@[simp] theorem State.advancePins_port (s : State) : s.advancePins.port = s.port := by
  unfold State.advancePins; split <;> rfl

/-- The signals of the next edge are the next of the inputs; without one they hold. -/
theorem State.advancePins_of_nil {s : State} (h : s.inputs = []) : s.advancePins = s := by
  unfold State.advancePins; rw [h]

theorem State.advancePins_of_cons {s : State} {p : Pins} {ps : List Pins} (h : s.inputs = p :: ps) :
    s.advancePins = { s with pins := p, inputs := ps } := by
  unfold State.advancePins; rw [h]

/-- Only the two environment fields change when the signals advance. -/
theorem State.advancePins_eq (s : State) :
    s.advancePins = { s with pins := s.advancePins.pins, inputs := s.advancePins.inputs } := by
  unfold State.advancePins; split <;> rfl

@[simp] theorem State.advancePins_status (s : State) : s.advancePins.status = s.status := by
  simp [State.status]

@[simp] theorem State.respond_status (s : State) (v : Word) : (s.respond v).status = s.status := rfl

@[simp] theorem State.accept_status (s : State) : s.accept.status = s.status := rfl

@[simp] theorem State.respond_readByte (s : State) (v : Word) (r : Row) (b : ByteCol) :
    (s.respond v).readByte r b = s.readByte r b := rfl

@[simp] theorem State.raise_readByte (s : State) (e : Err) (r : Row) (b : ByteCol) :
    (s.raise e).readByte r b = s.readByte r b := rfl

end Sys2Proof.Machine
end

