-- ==== Sys2Proof/Laws/Outcomes.lean ====
section
/-! SUPPORT. Everything a shared operation can do, said once: if it answers a next state, then one of these cases holds; and
the equations a command's meaning runs by. -/

namespace Sys2Proof.Machine

/-! ### The phase check -/

theorem whenInitialised_of_uninit {s : State} (f : State → Outcome) (h : s.phase = .uninit) :
    whenInitialised s f = .next (s.raise .uninit) := by
  unfold whenInitialised; rw [h]

theorem whenInitialised_of_ne {s : State} (f : State → Outcome) (h : s.phase ≠ .uninit) :
    whenInitialised s f = f s := by
  unfold whenInitialised
  cases hp : s.phase with
  | uninit => exact absurd hp h
  | seeded => rfl
  | evolving => rfl

theorem whenInitialised_next {s t : State} {f : State → Outcome} (h : whenInitialised s f = .next t) :
    (s.phase = .uninit ∧ t = s.raise .uninit) ∨ (s.phase ≠ .uninit ∧ f s = .next t) := by
  by_cases hp : s.phase = .uninit
  · rw [whenInitialised_of_uninit f hp] at h
    exact .inl ⟨hp, by injection h with h; exact h.symm⟩
  · rw [whenInitialised_of_ne f hp] at h
    exact .inr ⟨hp, h⟩

/-! ### Reading a byte -/

@[simp] theorem withByte_some (v : Byte) (f : Byte → Outcome) : withByte (some v) f = f v := rfl

@[simp] theorem withByte_none (f : Byte → Outcome) : withByte none f = .fault .unspecifiedByte := rfl

theorem withByte_next {v : Option Byte} {f : Byte → Outcome} {t : State} (h : withByte v f = .next t) :
    ∃ b, v = some b ∧ f b = .next t := by
  cases v with
  | none => cases h
  | some b => exact ⟨b, rfl, h⟩

/-- In a buffer written in full every byte of the current buffer has a value. -/
theorem State.exists_readByte {s : State} (h : s.mem.written s.cur = true) (r : Row) (b : ByteCol) :
    ∃ v, s.readByte r b = some v := Memory.exists_read_of_written h r b

theorem State.exists_grid {s : State} (h : s.mem.written s.cur = true) : ∃ g, s.mem.grid s.cur = some g :=
  Option.isSome_iff_exists.1 ((Memory.grid_isSome_iff s.mem s.cur).2 h)

/-! ### The harvest and the reseed -/

theorem State.latchHarvest_eq_some {s t : State} (h : s.latchHarvest = some t) :
    ∃ a b c, s.readByte 0 0 = some a ∧ s.readByte 64 4 = some b ∧ s.readByte 32 2 = some c ∧
      t = { s with harvest := { shifted := a, amount := b, xor := c } } := by
  unfold State.latchHarvest at h
  split at h
  · rename_i a b c ha hb hc
    cases h
    exact ⟨a, b, c, ha, hb, hc, rfl⟩
  · cases h

theorem State.latchHarvest_of_reads {s : State} {a b c : Byte} (ha : s.readByte 0 0 = some a)
    (hb : s.readByte 64 4 = some b) (hc : s.readByte 32 2 = some c) :
    s.latchHarvest = some { s with harvest := { shifted := a, amount := b, xor := c } } := by
  unfold State.latchHarvest
  simp only [ha, hb, hc]

theorem reseedNow_next {s t : State} (h : reseedNow s = .next t) :
    ∃ u, s.latchHarvest = some u ∧ t = (u.applySeed (deriveSeed u.harvest)).respond 0 := by
  unfold reseedNow at h
  split at h
  · cases h
  · rename_i u hu
    exact ⟨u, hu, by injection h with h; exact h.symm⟩

/-! ### Command sequences -/

@[simp] theorem andThen_next (s : State) (f : State → Outcome) : andThen (.next s) f = f s := rfl

@[simp] theorem execAll_nil (s : State) : execAll [] s = .next s := rfl

theorem execAll_cons (i : Instr) (is : List Instr) (s : State) :
    execAll (i :: is) s = andThen (exec i s) (execAll is) := rfl

/-! ### Runs -/

theorem core_run_zero (s : State) : Host.Core.run Sys2Proof.core 0 s = .next s := rfl

/-- A run goes on from the state its first step answers. -/
theorem run_of_step (M : Host.Core) (k : Nat) {s t : M.State} (h : M.step s = .next t) :
    Host.Core.run M (k + 1) s = Host.Core.run M k t := by
  rw [Host.Core.run, h]

theorem core_run_of_step (k : Nat) {s t : State} (h : step s = .next t) :
    Host.Core.run Sys2Proof.core (k + 1) s = Host.Core.run Sys2Proof.core k t :=
  run_of_step Sys2Proof.core k h

/-! ### One event of the port -/

theorem portEvent_of_busy {s : State} (h : s.port = .busy) : portEvent s = runCommand s := by
  unfold portEvent; rw [h]

/-- What an event of the port out of reset can do. -/
theorem portEvent_next {s t : State} (h : portEvent s = .next t) :
    (s.port = .inReset ∧ t = { s with port := .ready }) ∨
    (s.port = .ready ∧ s.pins.cmdValid = true ∧ t = s.accept) ∨
    (s.port = .ready ∧ s.pins.cmdValid = false ∧ t = s) ∨
    (s.port = .busy ∧ runCommand s = .next t) ∨
    (∃ r, s.port = .responding r ∧ s.pins.rspReady = true ∧ t = { s with port := .ready }) ∨
    (∃ r, s.port = .responding r ∧ s.pins.rspReady = false ∧ t = s) := by
  unfold portEvent at h
  split at h
  · rename_i hp
    exact .inl ⟨hp, by injection h with h; exact h.symm⟩
  · rename_i hp
    cases hv : s.pins.cmdValid <;> simp only [hv, if_true, Bool.false_eq_true, if_false] at h <;>
      injection h with h <;> simp [hp, h.symm]
  · rename_i hp
    exact .inr (.inr (.inr (.inl ⟨hp, h⟩)))
  · rename_i r hp
    cases hv : s.pins.rspReady <;> simp only [hv, if_true, Bool.false_eq_true, if_false] at h <;>
      injection h with h <;> simp [hp, h.symm]

/-- What performing the accepted command can do. -/
theorem runCommand_next {s t : State} (h : runCommand s = .next t) :
    (decode s.cmd = none ∧ t = s.raise .illegal) ∨ (∃ i, decode s.cmd = some i ∧ exec i s = .next t) := by
  unfold runCommand at h
  split at h
  · rename_i hd
    exact .inl ⟨hd, by injection h with h; exact h.symm⟩
  · rename_i i hd
    exact .inr ⟨i, hd, h⟩

/-- What the block can do at one edge. -/
theorem blockEdge_next {s t : State} (h : blockEdge s = .next t) :
    (s.pins.rstN = false ∧ t = s.assertReset) ∨
    (s.pins.rstN = true ∧ s.err ≠ .invariant ∧ portEvent s = .next t) := by
  unfold blockEdge at h
  split at h
  · rename_i hr
    split at h
    · cases h
    · rename_i he
      exact .inr ⟨hr, he, h⟩
  · rename_i hr
    exact .inl ⟨by simpa using hr, by injection h with h; exact h.symm⟩

/-- A step is one edge of the block, then the environment's signals change. -/
theorem step_next_iff {s t : State} : step s = .next t ↔ ∃ u, blockEdge s = .next u ∧ t = u.advancePins := by
  unfold step blockStep
  cases h : blockEdge s with
  | next u => simp [eq_comm]
  | fault f => simp
  | refused r => simp

end Sys2Proof.Machine
end

