-- ==== Sys2Proof/Laws/Exec.lean ====
section
/-! SUPPORT. What a command does when it answers a next state, said once for all commands: the cases of `Effect`. A proof about
every command takes these cases apart and never unfolds a meaning. -/

namespace Sys2Proof.Machine

/-- `Effect s i t`: in state `s` the command `i` leaves the state `t`. -/
inductive Effect (s : State) : Instr → State → Prop where
  | nop : Effect s .nop (s.respond 0)
  | rdreg {sel : BitVec 4} {v : Word} (reg : s.readReg sel = some v) : Effect s (.rdreg sel) (s.respond v)
  | illegalSelector {sel : BitVec 4} (reg : s.readReg sel = none) : Effect s (.rdreg sel) (s.raise .illegal)
  | uninit {i : Instr} (needs : needsBuffer i = true) (phase : s.phase = .uninit) : Effect s i (s.raise .uninit)
  | getc {row : Row} {col : Col} {v : Byte} (phase : s.phase ≠ .uninit) (byte : s.readByte row (byteOf col) = some v) :
    Effect s (.getc row col) (s.respond ((BitVec.ofBool (byteCell v (posOf col))).setWidth 32))
  | setc {row : Row} {col : Col} {v : Bool} {old : Byte} (phase : s.phase ≠ .uninit)
    (byte : s.readByte row (byteOf col) = some old) :
    Effect s (.setc row col v) ((s.writeByte row (byteOf col) (setByteCell old (posOf col) v)).respond 0)
  | rdb {row : Row} {byte : ByteCol} {v : Byte} (phase : s.phase ≠ .uninit) (read : s.readByte row byte = some v) :
    Effect s (.rdb row byte) (s.respond (v.setWidth 32))
  | wrb {row : Row} {byte : ByteCol} {data : Byte} (phase : s.phase ≠ .uninit) :
    Effect s (.wrb row byte data) ((s.writeByte row byte data).respond 0)
  | clear : Effect s .clear (s.clearCurrent.respond 0)
  | step {g : Grid} (phase : s.phase ≠ .uninit) (grid : s.mem.grid s.cur = some g) :
    Effect s .step ((s.advanceTo (stepGrid g)).respond 0)
  | seed : Effect s .seed ((s.applySeed s.wdata).respond 0)
  | reseed {u : State} (phase : s.phase ≠ .uninit) (harvest : s.markReseeded.latchHarvest = some u) :
    Effect s (.reseed false) ((u.applySeed (deriveSeed u.harvest)).respond 0)
  | reseedTriggered {u : State} (phase : s.phase ≠ .uninit) (trigger : s.pins.trigger = true)
    (harvest : s.sampleTrigger.latchHarvest = some u) :
    Effect s (.reseed true) ((u.applySeed (deriveSeed u.harvest)).respond 0)
  | reseedNotTriggered (phase : s.phase ≠ .uninit) (trigger : s.pins.trigger = false) :
    Effect s (.reseed true) (s.sampleTrigger.respond 0)

theorem execGetc_effect {row : Row} {col : Col} {s t : State} (h : execGetc row col s = .next t) :
    Effect s (.getc row col) t := by
  rcases whenInitialised_next h with ⟨hp, rfl⟩ | ⟨hp, h⟩
  · exact .uninit rfl hp
  · obtain ⟨v, hv, h⟩ := withByte_next h
    cases h
    exact .getc hp hv

theorem execSetc_effect {row : Row} {col : Col} {v : Bool} {s t : State} (h : execSetc row col v s = .next t) :
    Effect s (.setc row col v) t := by
  rcases whenInitialised_next h with ⟨hp, rfl⟩ | ⟨hp, h⟩
  · exact .uninit rfl hp
  · obtain ⟨old, hv, h⟩ := withByte_next h
    cases h
    exact .setc hp hv

theorem execRdb_effect {row : Row} {byte : ByteCol} {s t : State} (h : execRdb row byte s = .next t) :
    Effect s (.rdb row byte) t := by
  rcases whenInitialised_next h with ⟨hp, rfl⟩ | ⟨hp, h⟩
  · exact .uninit rfl hp
  · obtain ⟨v, hv, h⟩ := withByte_next h
    cases h
    exact .rdb hp hv

theorem execWrb_effect {row : Row} {byte : ByteCol} {data : Byte} {s t : State} (h : execWrb row byte data s = .next t) :
    Effect s (.wrb row byte data) t := by
  rcases whenInitialised_next h with ⟨hp, rfl⟩ | ⟨hp, h⟩
  · exact .uninit rfl hp
  · cases h
    exact .wrb hp

theorem execStep_effect {s t : State} (h : execStep s = .next t) : Effect s .step t := by
  rcases whenInitialised_next h with ⟨hp, rfl⟩ | ⟨hp, h⟩
  · exact .uninit rfl hp
  · split at h
    · cases h
    · rename_i g hg
      cases h
      exact .step hp hg

theorem execReseed_effect {cond : Bool} {s t : State} (h : execReseed cond s = .next t) : Effect s (.reseed cond) t := by
  rcases whenInitialised_next h with ⟨hp, rfl⟩ | ⟨hp, h⟩
  · exact .uninit rfl hp
  · cases cond with
    | false =>
      obtain ⟨u, hu, rfl⟩ := reseedNow_next h
      exact .reseed hp hu
    | true =>
      rw [if_pos rfl] at h
      cases ht : s.pins.trigger with
      | true =>
        rw [reseedIfTriggered, State.sampleTrigger_trig, ht, if_pos rfl] at h
        obtain ⟨u, hu, rfl⟩ := reseedNow_next h
        exact .reseedTriggered hp ht hu
      | false =>
        rw [reseedIfTriggered, State.sampleTrigger_trig, ht, if_neg Bool.false_ne_true] at h
        cases h
        exact .reseedNotTriggered hp ht

theorem execRdreg_effect {sel : BitVec 4} {s t : State} (h : execRdreg sel s = .next t) : Effect s (.rdreg sel) t := by
  unfold execRdreg at h
  split at h
  · rename_i v hv
    cases h
    exact .rdreg hv
  · rename_i hv
    cases h
    exact .illegalSelector hv

/-- Every next state a command answers is one of the cases of `Effect`. -/
theorem exec_effect {i : Instr} {s t : State} (h : exec i s = .next t) : Effect s i t := by
  cases i with
  | nop => cases h; exact .nop
  | getc row col => exact execGetc_effect h
  | setc row col v => exact execSetc_effect h
  | rdb row byte => exact execRdb_effect h
  | wrb row byte data => exact execWrb_effect h
  | clear => cases h; exact .clear
  | step => exact execStep_effect h
  | seed =>
    simp only [exec, execSeed] at h
    injection h with h
    exact h ▸ .seed
  | reseed cond => exact execReseed_effect h
  | rdreg sel => exact execRdreg_effect h

end Sys2Proof.Machine
end

