-- ==== Sys2Proof/Laws/PerInstr.lean ====
section
/-! SUPPORT. Statements about every command as syntax, one lemma per constructor. -/

/-! ### Every command word carries its opcode in its top four bits, and a format is told apart by it alone (R76, R85) -/

namespace Sys2Proof.Laws.OpcodeOnTop

/-- `encode i` has `OP` of its row in `cmd[31:28]`. -/
def Statement (i : Instr) : Prop := fieldOp (encode i) = i.opcode

theorem nop : Statement .nop := by unfold Statement; decide

theorem getc (row : Row) (col : Col) : Statement (.getc row col) := by
  unfold Statement fieldOp encode Instr.opcode
  ext j hj
  simp only [BitVec.getElem_extractLsb', BitVec.getLsbD_append]
  simp [show ¬ 28 + j < 14 by omega, show ¬ 28 + j - 14 < 1 by omega, show ¬ 28 + j - 14 - 1 < 6 by omega,
    show ¬ 28 + j - 14 - 1 - 6 < 7 by omega, show 28 + j - 14 - 1 - 6 - 7 = j by omega, BitVec.getLsbD_eq_getElem hj]

theorem setc (row : Row) (col : Col) (v : Bool) : Statement (.setc row col v) := by
  unfold Statement fieldOp encode Instr.opcode
  ext j hj
  simp only [BitVec.getElem_extractLsb', BitVec.getLsbD_append]
  simp [show ¬ 28 + j < 14 by omega, show ¬ 28 + j - 14 < 1 by omega, show ¬ 28 + j - 14 - 1 < 6 by omega,
    show ¬ 28 + j - 14 - 1 - 6 < 7 by omega, show 28 + j - 14 - 1 - 6 - 7 = j by omega, BitVec.getLsbD_eq_getElem hj]

theorem rdb (row : Row) (byte : ByteCol) : Statement (.rdb row byte) := by
  unfold Statement fieldOp encode Instr.opcode
  ext j hj
  simp only [BitVec.getElem_extractLsb', BitVec.getLsbD_append]
  simp [show ¬ 28 + j < 8 by omega, show ¬ 28 + j - 8 < 10 by omega, show ¬ 28 + j - 8 - 10 < 3 by omega,
    show ¬ 28 + j - 8 - 10 - 3 < 7 by omega, show 28 + j - 8 - 10 - 3 - 7 = j by omega, BitVec.getLsbD_eq_getElem hj]

theorem wrb (row : Row) (byte : ByteCol) (data : Byte) : Statement (.wrb row byte data) := by
  unfold Statement fieldOp encode Instr.opcode
  ext j hj
  simp only [BitVec.getElem_extractLsb', BitVec.getLsbD_append]
  simp [show ¬ 28 + j < 8 by omega, show ¬ 28 + j - 8 < 10 by omega, show ¬ 28 + j - 8 - 10 < 3 by omega,
    show ¬ 28 + j - 8 - 10 - 3 < 7 by omega, show 28 + j - 8 - 10 - 3 - 7 = j by omega, BitVec.getLsbD_eq_getElem hj]

theorem clear : Statement .clear := by unfold Statement; decide

theorem step : Statement .step := by unfold Statement; decide

theorem seed : Statement .seed := by unfold Statement; decide

theorem reseed (cond : Bool) : Statement (.reseed cond) := by unfold Statement; cases cond <;> decide

theorem rdreg (sel : BitVec 4) : Statement (.rdreg sel) := by
  unfold Statement fieldOp encode Instr.opcode
  ext j hj
  simp only [BitVec.getElem_extractLsb', BitVec.getLsbD_append]
  simp [show ¬ 28 + j < 4 by omega, show ¬ 28 + j - 4 < 24 by omega, show 28 + j - 4 - 24 = j by omega,
    BitVec.getLsbD_eq_getElem hj]

end Sys2Proof.Laws.OpcodeOnTop
end

