-- ==== Sys2Proof/Tests/Slice0.lean ====
section
/-! SUPPORT. The model's own tests: the refused ill-formed term, decoding of words written out from the spec's encodings, one-step
tests whose expected values are the vectors of 95_test_vectors.md, and for every obligation with hypotheses a state that meets them. -/

namespace Sys2Proof.Tests

open Sys2Proof Sys2Proof.Machine

/-! ### Helpers -/

/-- The state an outcome answers. -/
def after : Outcome → Option State
  | .next s => some s
  | .fault _ => none
  | .refused _ => none

/-- The response in flight after an outcome. -/
def rsp (o : Outcome) : Option Port := (after o).map State.port

/-- A response without an error, and one with. -/
def ok (v : Word) : Option Port := some (.responding { rdata := v, rspErr := false })
def bad : Option Port := some (.responding { rdata := 0, rspErr := true })

/-- A seeded state that lists just these bytes of BUF[0]. -/
def holding (bytes : List (Nat × Byte)) : State := { State.reset with mem := bytes, phase := .seeded }

/-- The state after reset and CLEAR: SEEDED, every cell of BUF[0] dead. -/
def dead : State := State.reset.clearCurrent

/-- `dead` with one live byte at row 5, byte column 5. -/
def spotted : State := dead.writeByte 5 5 0xFF

/-- A state with other input signals. -/
def withPins (s : State) (p : Pins) : State := { s with pins := p }

/-- Signals that present a command and take a response; reset asserted; trigger 1. -/
def presenting (w d : Word) : Pins :=
  { rstN := true, cmdValid := true, cmd := w, wdata := d, rspReady := true, trigger := false }
def resetLow : Pins := { Pins.idle with rstN := false }
def triggered : Pins := { Pins.idle with trigger := true }

/-- The three harvested bytes, at (0, 0), (32, 2) and (64, 4) of BUF[0]. -/
def harvestOf (a b c : Byte) : State := holding [(0, a), (258, c), (516, b)]

/-! ### Well-formedness: the one check -/

theorem test_wellFormed_refuses_selector_four : (Instr.rdreg 4).wellFormed = false := by decide
theorem test_wellFormed_accepts_selector_three : (Instr.rdreg 3).wellFormed = true := by decide

/-! ### Decoding: 95_test_vectors.md section 2, and words in bits from the formats of R76 -/

theorem test_decode_nop : decode 0x00000000 = some .nop := by decide
theorem test_decode_getc :
    decode 0b0001_1111111_111111_0_00000000000000 = some (.getc 127 63) ∧ decode 0x101F8000 = some (.getc 0 63) ∧
    decode 0x1FE00000 = some (.getc 127 0) := by decide
theorem test_decode_setc :
    decode 0b0010_0001010_010101_1_00000000000000 = some (.setc 10 21 true) ∧
    decode 0x25040000 = some (.setc 40 8 false) ∧ decode 0x2000C000 = some (.setc 0 1 true) := by decide
theorem test_decode_rdb :
    decode 0b0011_1000000_100_0000000000_00000000 = some (.rdb 64 4) ∧ decode 0x31480000 = some (.rdb 10 2) := by
  decide
theorem test_decode_wrb :
    decode 0b0100_0001010_010_0000000000_00001110 = some (.wrb 10 2 0x0E) ∧
    decode 0x450400C0 = some (.wrb 40 1 0xC0) := by decide
theorem test_decode_clear : decode 0b0101_0000000000000000000000000000 = some .clear := by decide
theorem test_decode_step : decode 0b0110_0000000000000000000000000000 = some .step := by decide
theorem test_decode_seed : decode 0b0111_0000000000000000000000000000 = some .seed := by decide
theorem test_decode_reseed :
    decode 0b1000_000000000000000000000000000_0 = some (.reseed false) ∧ decode 0x80000001 = some (.reseed true) := by
  decide
theorem test_decode_rdreg :
    decode 0b1001_000000000000000000000000_0011 = some (.rdreg 3) ∧ decode 0x90000000 = some (.rdreg 0) := by decide
theorem test_decode_illegal :
    decode 0x90000004 = none ∧ decode 0x9000000F = none ∧ decode 0xA0000000 = none ∧ decode 0xFFFFFFFF = none ∧
    decode 0x00000001 = none ∧ decode 0x10004000 = none ∧ decode 0x10000001 = none ∧ decode 0x20002000 = none := by decide
theorem test_decode_illegal_reserved_bits :
    decode 0x30000001 = none ∧ decode 0x30020000 = none ∧ decode 0x40000100 = none ∧ decode 0x50000001 = none ∧
    decode 0x60000010 = none ∧ decode 0x70000001 = none ∧ decode 0x80000002 = none ∧ decode 0x90000010 = none := by decide
theorem test_decodeTableWord_drops_high_bits : decodeTableWord 32 0x190000001 = some (.rdreg 1) := by decide

/-! ### Assembler: R89, R90 -/

theorem test_parse_setc :
    (parseLine ['S', 'e', 't', 'c', ' ', '1', '0', ',', ' ', '0', 'x', '1', '5', ',', '1']).bind AsmLine.assemble =
      some [(0x214AC000, 0)] := by decide
theorem test_parse_seed :
    (parseLine ['s', 'e', 'e', 'd', ' ', '0', 'x', 'D', 'e', 'A', 'd', 'B', 'E', 'E', 'F']).bind AsmLine.assemble =
      some [(0x70000000, 0xDEADBEEF)] := by decide
theorem test_parse_reseed_t : parseLine ['r', 'e', 's', 'e', 'e', 'd', '.', 't'] = some .reseedT := by decide
theorem test_parse_rdreg_gen :
    (parseLine ['r', 'd', 'r', 'e', 'g', ' ', 'g', 'e', 'n']).bind AsmLine.assemble = some [(0x90000002, 0)] := by decide
theorem test_assemble_refuses_ranges :
    (AsmLine.getc 128 0).assemble = none ∧ (AsmLine.getc 127 64).assemble = none ∧
    (AsmLine.setc 127 63 2).assemble = none ∧ (AsmLine.rdb 0 8).assemble = none ∧
    (AsmLine.wrb 127 7 256).assemble = none ∧ (AsmLine.seed 4294967296).assemble = none ∧
    (AsmLine.seed 4294967295).assemble = some [(0x70000000, 0xFFFFFFFF)] := by decide

/-! ### Errors, through one step from reset: vectors E1 to E7, K1, K2, K7 -/

theorem test_E1_reserved_opcode :
    rsp (step (State.reset.withFetchWord 32 0xA0000000)) = bad ∧
    (after (step (State.reset.withFetchWord 32 0xA0000000))).map State.status = some 0x00000010 := by decide
theorem test_E2_getc_in_uninit :
    (after (step (State.reset.withFetchWord 32 0x10000000))).map State.status = some 0x00000020 := by decide
theorem test_E3_illegal_before_uninit :
    (after (step (State.reset.withFetchWord 32 0x10004000))).map State.status = some 0x00000010 := by decide
theorem test_E4_first_error_wins :
    (after (step (State.withFetchWord { State.reset with err := .uninit } 32 0xA0000000))).map State.status =
      some 0x00000020 := by decide
theorem test_E7_reseed_t_in_uninit :
    (after (exec (.reseed true) (withPins State.reset triggered))).map State.status = some 0x00000020 := by decide
theorem test_K1_nop : rsp (step (State.reset.withFetchWord 32 0x00000000)) = ok 0 := by decide
theorem test_K7_reserved_selector : rsp (step (State.reset.withFetchWord 32 0x90000007)) = bad := by decide

/-! ### Grid access: vectors G1 to G10 -/

theorem test_G1_setc : (after (exec (.setc 0 0 true) (holding [(0, 0x00)]))).map State.mem = some [(0, 0x80)] := by decide
theorem test_G7_setc_clears_bit_seven :
    (after (exec (.setc 3 8 false) (holding [(25, 0xA5)]))).map State.mem = some [(25, 0x25)] := by decide
theorem test_G2_G3_getc :
    rsp (exec (.getc 0 0) (holding [(0, 0x80)])) = ok 1 ∧ rsp (exec (.getc 0 1) (holding [(0, 0x80)])) = ok 0 := by decide
theorem test_G6_getc_order :
    ([8, 9, 10, 11, 12, 13, 14, 15] : List Col).map (fun c => rsp (exec (.getc 3 c) (holding [(25, 0xA5)]))) =
      [ok 1, ok 0, ok 1, ok 0, ok 0, ok 1, ok 0, ok 1] := by decide
theorem test_G5_rdb : rsp (exec (.rdb 127 7) (holding [(1023, 0x01)])) = ok 0x01 := by decide
theorem test_rdb_of_buffer_one :
    rsp (exec (.rdb 127 7) { holding [(1023, 0x01), (2047, 0xFE)] with cur := 1 }) = ok 0xFE := by decide
theorem test_G6_wrb :
    (after (exec (.wrb 3 1 0xA5) (holding [(24, 0x11), (25, 0x00)]))).map State.mem = some [(24, 0x11), (25, 0xA5)] := by
  decide
theorem test_G10_clear :
    (after (exec .clear { holding [] with cur := 1, phase := .evolving, gen := 5 })).map
      (fun t => (t.status, t.gen)) = some (0x00000005, 0) := by decide

/-! ### The neighbour counter and the step: vectors N1, N5, T1 to T5 -/

theorem test_N1_count :
    ([(127, 63), (127, 0), (127, 1), (0, 63), (0, 1), (1, 63), (1, 0), (1, 1), (0, 0), (2, 0), (0, 2), (126, 63)] :
      List (Row × Col)).map (fun p => count (gridOf [(0, 0)]) p.1 p.2) = [1, 1, 1, 1, 1, 1, 1, 1, 0, 0, 0, 0] := by decide
theorem test_N5_count :
    ([(2, 8), (3, 8), (4, 8), (2, 6), (3, 10), (4, 7)] : List (Row × Col)).map
      (fun p => count (gridOf [(3, 7), (3, 9)]) p.1 p.2) = [2, 2, 2, 1, 1, 1] := by decide
theorem test_T2_T3_T4_T5_step :
    packByte (stepGrid (gridOf [(40, 7), (40, 8), (40, 9)])) 39 1 = 0x80 ∧
    packByte (stepGrid (gridOf [(0, 63), (0, 0), (0, 1)])) 127 0 = 0x80 ∧
    packByte (stepGrid (gridOf [(0, 63), (0, 0), (0, 1)])) 0 7 = 0x00 ∧
    packByte (stepGrid (gridOf [(127, 5), (0, 5), (1, 5)])) 0 0 = 0x0E ∧
    packByte (stepGrid (gridOf [(0, 0), (0, 63), (127, 0), (127, 63)])) 127 7 = 0x01 := by decide
theorem test_T1_step_bytes :
    (after (exec .step (dead.writeByte 10 2 0x0E))).bind (fun t => t.readByte 9 2) = some 0x04 := by decide +kernel

/-- R28: GEN wraps from 0xFFFFFFFF to 0; STATUS shows EVOLVING and CUR 1, as after X4's step. -/
theorem test_step_gen_wraps :
    (after (exec .step { dead with gen := 0xFFFFFFFF })).map (fun t => (t.status, t.gen)) = some (0x00000006, 0) := by
  decide +kernel

/-! ### The reseeder: vectors R9, R10, S1, S4, D3, D5, D6, D8, D9, RS1, RS2 -/

theorem test_R9_R10_prngNext : prngNext 0xFFFFFFFF = 0x3C558D52 ∧ prngNext 0x80000000 = 0xBC6EF35F := by decide
theorem test_S1_rows :
    prngBytes 8 0 = [0x3C, 0x47, 0xD1, 0xAA, 0x62, 0x9F, 0x57, 0xA3] ∧
    (prngBytes 1024 0).drop 1016 = [0x01, 0x96, 0x06, 0x97, 0x63, 0x23, 0x25, 0x62] := by decide +kernel
theorem test_S1_seed :
    (after (exec .seed State.reset)).map (fun t => (t.prngState, t.status)) = some (0x62429400, 0x00000001) := by
  decide +kernel
theorem test_S4_seed :
    (after (exec .seed { State.reset with wdata := 0xDEADBEEF })).map (fun t => (t.prngState, t.seed)) =
      some (0xF43042EF, 0xDEADBEEF) := by decide +kernel
theorem test_D_corners :
    deriveSeed ⟨0xFF, 0x14, 0xFF⟩ = 0x0FF000FF ∧ deriveSeed ⟨0x5A, 0x00, 0x5A⟩ = 0 ∧
    deriveSeed ⟨0x01, 0xFF, 0x00⟩ = 0x00000008 ∧ deriveSeed ⟨0x80, 0x29, 0x01⟩ = 0x08000001 ∧
    deriveSeed ⟨0x00, 0x13, 0x77⟩ = 0x00000077 := by decide
theorem test_RS1_reseed :
    (after (exec (.reseed false) (harvestOf 0x3C 0x85 0x18))).map (fun t => (t.seed, t.prngState, t.status)) =
      some (0x00001E18, 0x100C3218, 0x00000009) := by decide +kernel
theorem test_RS2_reseed_t_without_trigger :
    (after (exec (.reseed true) { harvestOf 0x3C 0x85 0x18 with seed := 1, gen := 1, rs := true })).map
      (fun t => (t.seed, t.gen, t.rs, t.mem)) = some (1, 1, false, [(0, 0x3C), (258, 0x18), (516, 0x85)]) := by decide

/-! ### Control -/

theorem test_rdreg_status : rsp (exec (.rdreg 0) { holding [] with phase := .evolving, cur := 1 }) = ok 0x00000006 := by decide
theorem test_rdreg_prng_and_gen :
    rsp (exec (.rdreg 3) { holding [] with prngState := 0x62429400 }) = ok 0x62429400 ∧
    rsp (exec (.rdreg 2) { holding [] with gen := 7 }) = ok 7 := by decide

/-! ### The states the witnesses use -/

theorem dead_written : dead.mem.written dead.cur = true := Memory.written_fill _ _ _ deadBytes_length

theorem dead_canonical : dead.mem.wf := Memory.wf_fill _ _ deadBytes_length (by decide)

theorem dead_reads (r : Row) (b : ByteCol) : dead.readByte r b = some 0x00 := by
  have hr := r.isLt
  have hb := b.isLt
  unfold State.readByte State.curAddr dead
  rw [State.clearCurrent_mem, State.clearCurrent_cur, Memory.read_fill_gridAddr _ _ _ deadBytes_length, deadBytes,
    List.getElem?_replicate, if_pos (by simp only [Config.bytesPerGrid]; omega)]

theorem dead_phase : dead.phase ≠ .uninit := by decide

theorem dead_inv : dead.Inv :=
  ⟨dead_canonical, fun _ => dead_written, by decide, fun h => absurd h dead_phase, fun _ => rfl, .inl ⟨rfl, rfl⟩,
    fun _ h => by cases h⟩

theorem inv_of_writeByte {s : State} (h : s.Inv) (hp : s.phase ≠ .uninit) (r : Row) (b : ByteCol) (v : Byte) :
    (s.writeByte r b v).Inv :=
  ⟨Memory.wf_write h.memoryCanonical (gridAddr_lt _ _ _),
    fun _ => Memory.written_write h.memoryCanonical _ (gridAddr_lt _ _ _) (h.currentWritten hp), h.noInvariantError,
    fun hu => absurd hu hp, h.seededGenZero, h.prngFollowsSeed, h.errorResponse⟩

theorem spotted_inv : spotted.Inv := inv_of_writeByte dead_inv dead_phase _ _ _

theorem readByte_writeByte_same (s : State) (r : Row) (b : ByteCol) (v : Byte) :
    (s.writeByte r b v).readByte r b = some v := Memory.read_write_same _ _ _

theorem readByte_writeByte_other {s : State} {r r' : Row} {b b' : ByteCol} (v : Byte)
    (h : s.curAddr r' b' ≠ s.curAddr r b) : (s.writeByte r b v).readByte r' b' = s.readByte r' b' :=
  Memory.read_write_other _ _ h

/-- The invariant does not look at an accepted command or at the signals. -/
theorem inv_of_busy {s : State} (h : s.Inv) (n w : Nat) : (s.withFetchWord n w).Inv :=
  ⟨h.memoryCanonical, h.currentWritten, h.noInvariantError, h.uninitAsReset, h.seededGenZero, h.prngFollowsSeed,
    fun _ h => by cases h⟩

theorem dead_presenting_inv (w d : Word) : (withPins dead (presenting w d)).Inv :=
  ⟨dead_canonical, fun _ => dead_written, dead_inv.noInvariantError, fun h => absurd h dead_phase, fun _ => rfl,
    .inl ⟨rfl, rfl⟩, fun _ h => by cases h⟩

/-- A state with the first byte of BUF[1] changed. -/
def plusNext (s : State) (v : Byte) : State := { s with mem := s.mem.write 1024 v }

theorem sameButNext_plusNext {s : State} (h : s.mem.wf) (hc : s.cur = 0) (v : Byte) : SameButNext s (plusNext s v) := by
  refine ⟨h, Memory.wf_write h (by decide), rfl, fun r b => ?_⟩
  have hr := r.isLt
  have hb := b.isLt
  have haddr : s.curAddr r b ≠ 1024 := by
    rw [State.curAddr, gridAddr_toNat, hc]
    have h0 : (0 : BufSel).toNat = 0 := rfl
    omega
  exact Memory.read_write_other s.mem v haddr

/-! ### Witnesses: for every obligation with hypotheses, a state and operands that meet them together -/

theorem witness_DecodeOfEncode : (Instr.rdreg 3).wellFormed = true ∧ (Instr.wrb 127 7 0xFF).wellFormed = true := by decide
theorem witness_EncodeOfDecode : decode 0x4FFC00FF = some (.wrb 127 7 0xFF) := by decide
theorem witness_IllegalWords :
    decode 0x9FFFFFFF = none ∧ decode 0x90000003 ≠ none ∧ decode 0x90000004 = none ∧ decode 0x40000080 ≠ none ∧
    decode 0x40000100 = none ∧ decode 0x2FFFC000 ≠ none ∧ decode 0x20002000 = none ∧ decode 0x3FFC0000 ≠ none ∧
    decode 0x30020000 = none ∧ decode 0x1FFF8000 ≠ none ∧ decode 0x10004000 = none ∧ decode 0x80000002 = none := by decide
theorem witness_AssembledWordsAreLegal : ((AsmLine.wrrow 127 0 1 2 3 4 5 6 255).assemble).isSome = true := by decide
theorem witness_StepPerformsTheAcceptedCommand :
    (dead.withFetchWord 32 0x80000001).pins.rstN = true ∧ (dead.withFetchWord 32 0x80000001).err ≠ .invariant ∧
    (dead.withFetchWord 32 0x80000001).port = .busy ∧
    decode (dead.withFetchWord 32 0x80000001).cmd = some (.reseed true) := by decide
theorem witness_IllegalWordRecordsErrIllegal :
    (State.reset.withFetchWord 32 0xA0000000).pins.rstN = true ∧
    (State.reset.withFetchWord 32 0xA0000000).err ≠ .invariant ∧
    (State.reset.withFetchWord 32 0xA0000000).port = .busy ∧
    (∀ row ∈ opcodeRows, (0xA0000000 : Word) &&& row.mask ≠ row.value) ∧
    (0x90000004 : Word).extractLsb' 28 4 = 9 ∧ 3 < (0x90000004 : Word).extractLsb' 0 4 := by decide
theorem witness_UninitRaisesErrUninit :
    (Instr.reseed true).wellFormed = true ∧ needsBuffer (.reseed true) = true ∧ State.reset.phase = .uninit ∧
    (Instr.rdreg 3).wellFormed = true ∧ needsBuffer (.rdreg 3) = false := by decide
theorem witness_FirstErrorWinsUntilReset :
    (∃ t, step { State.reset.withFetchWord 32 0xA0000000 with err := .uninit } = .next t) ∧
    (∃ t, step (withPins { State.reset with err := .uninit } resetLow) = .next t) ∧
    ({ State.reset.withFetchWord 32 0xA0000000 with err := .uninit } : State).pins.rstN = true ∧
    (withPins { State.reset with err := .uninit } resetLow).pins.rstN = false := ⟨⟨_, rfl⟩, ⟨_, rfl⟩, rfl, rfl⟩
theorem witness_ErrorsAreRecordedWhenReported :
    (State.reset.withFetchWord 32 0).port = .busy ∧ (State.reset.withFetchWord 32 0).pins.rstN = true ∧
    (State.reset.withFetchWord 32 0).err = .none ∧
    rsp (step (State.reset.withFetchWord 32 0)) = ok 0 ∧ rsp (step (State.reset.withFetchWord 32 1)) = bad := by decide
theorem witness_FatalErrorLeavesOnlyByReset :
    ({ State.reset with err := .invariant } : State).err = .invariant ∧
    ({ State.reset with err := .invariant } : State).pins.rstN = true ∧
    (withPins { State.reset with err := .invariant } resetLow).pins.rstN = false := by decide
theorem witness_ResetAbandonsEverything :
    (withPins (dead.withFetchWord 32 0x60000000) resetLow).pins.rstN = false ∧
    (withPins (dead.withFetchWord 32 0x60000000) resetLow).port = .busy := by decide

/-- One state for each of the five moves. -/
theorem witness_PortMoves :
    State.reset.pins.rstN = true ∧ State.reset.err ≠ .invariant ∧
    ({ State.reset with port := .inReset } : State).port = .inReset ∧
    (withPins State.reset (presenting 0 0)).port = .ready ∧ (withPins State.reset (presenting 0 0)).pins.cmdValid = true ∧
    State.reset.port = .ready ∧ State.reset.pins.cmdValid = false ∧
    (withPins (State.reset.respond 7) (presenting 0 0)).pins.rspReady = true ∧
    (State.reset.respond 7).port = .responding { rdata := 7, rspErr := false } ∧
    (State.reset.respond 7).pins.rspReady = false := by decide
theorem witness_AcceptedCommandCompletes :
    (dead.withFetchWord 32 0x60000000).Inv ∧ (dead.withFetchWord 32 0x60000000).pins.rstN = true ∧
    (dead.withFetchWord 32 0x60000000).port = .busy := ⟨inv_of_busy dead_inv _ _, rfl, rfl⟩
theorem witness_HandshakePerformsOneCommand :
    (withPins dead (presenting 0x60000000 0)).Inv ∧ (withPins dead (presenting 0x60000000 0)).port = .ready ∧
    (withPins dead (presenting 0x60000000 0)).inputs = [] ∧
    (withPins dead (presenting 0x60000000 0)).pins.rstN = true ∧
    (withPins dead (presenting 0x60000000 0)).pins.cmdValid = true ∧
    (withPins dead (presenting 0x60000000 0)).pins.rspReady = true ∧
    decode (withPins dead (presenting 0x60000000 0)).pins.cmd = some .step :=
  ⟨dead_presenting_inv _ _, rfl, rfl, rfl, rfl, rfl, by decide⟩
theorem witness_BusyPortSamplesNothing :
    (withPins (State.reset.respond 7) (presenting 1 2)).pins.rstN = true ∧
    (withPins (State.reset.respond 7) (presenting 1 2)).port ≠ .ready ∧
    ∃ t, step (withPins (State.reset.respond 7) (presenting 1 2)) = .next t := ⟨rfl, by decide, ⟨_, rfl⟩⟩
theorem witness_NopDoesNothing : (0x08000000 : Word).extractLsb' 28 4 = 0 ∧ (0x08000000 : Word).extractLsb' 0 28 ≠ 0 := by
  decide
theorem witness_RdregReturnsTheRegister : (4 : BitVec 4) ≤ 4 ∧ (4 : BitVec 4) ≤ 15 := by decide

/-- The byte that holds cell (127, 63), the last of the grid. -/
theorem witness_GetcReturnsTheCell :
    (holding [(1023, 0x01)]).phase ≠ .uninit ∧
    (holding [(1023, 0x01)]).mem.read ((holding [(1023, 0x01)]).curAddr 127 (byteOf 63)) = some 0x01 := by decide
theorem witness_RdbReturnsTheByte :
    (holding [(1023, 0x01)]).phase ≠ .uninit ∧
    (holding [(1023, 0x01)]).mem.read ((holding [(1023, 0x01)]).curAddr 127 7) = some 0x01 := by decide
theorem witness_SetcWritesOneCell :
    (holding [(0, 0x7F)]).phase ≠ .uninit ∧
    (holding [(0, 0x7F)]).mem.read ((holding [(0, 0x7F)]).curAddr 0 (byteOf 0)) = some 0x7F := by decide
theorem witness_WrbWritesOneByte : dead.phase ≠ .uninit := by decide
theorem witness_StepComputesTheNextGeneration : dead.phase ≠ .uninit ∧ dead.mem.written dead.cur = true :=
  ⟨by decide, dead_written⟩
theorem witness_EffectiveReseedFillsFromTheHarvest :
    (withPins (harvestOf 0xFF 0x14 0xFF) triggered).phase ≠ .uninit ∧
    (withPins (harvestOf 0xFF 0x14 0xFF) triggered).pins.trigger = true ∧
    (withPins (harvestOf 0xFF 0x14 0xFF) triggered).readByte 0 0 = some 0xFF ∧
    (withPins (harvestOf 0xFF 0x14 0xFF) triggered).readByte 64 4 = some 0x14 ∧
    (withPins (harvestOf 0xFF 0x14 0xFF) triggered).readByte 32 2 = some 0xFF := by decide
theorem witness_ReseedWithoutTriggerOnlyClearsRs : dead.phase ≠ .uninit ∧ dead.pins.trigger = false := by decide
theorem witness_PhaseTransitions :
    (∃ t, exec .seed State.reset = .next t) ∧ (∃ t, exec .step State.reset = .next t) ∧
    (∃ t, exec (.reseed true) dead = .next t) ∧ (∃ t, exec .nop dead = .next t) ∧
    (∃ t, step dead = .next t) ∧ dead.pins.rstN = true ∧ dead.port ≠ .busy ∧
    (∃ t, step (withPins dead resetLow) = .next t) ∧ (withPins dead resetLow).pins.rstN = false :=
  ⟨⟨_, rfl⟩, ⟨_, rfl⟩, ⟨_, rfl⟩, ⟨_, rfl⟩, ⟨_, rfl⟩, rfl, by decide, ⟨_, rfl⟩, rfl⟩
theorem witness_GenerationCounter :
    (∃ t, exec .clear { dead with gen := 7 } = .next t) ∧ ∃ t, exec .nop dead = .next t := ⟨⟨_, rfl⟩, ⟨_, rfl⟩⟩
theorem witness_OnlyStepWritesCur : ∃ t, exec (.wrb 0 0 0) dead = .next t := ⟨_, rfl⟩
theorem witness_ReseededFlag : ∃ t, exec (.reseed true) dead = .next t := ⟨_, rfl⟩
theorem witness_SeedRegistersWrittenOnlyBySeeding :
    ∃ t, exec .seed { State.reset with wdata := 5 } = .next t ∧ t.seed ≠ State.reset.seed := ⟨_, rfl, by decide⟩
theorem witness_OnlySeedReadsWdata :
    (withPins State.reset (presenting 0x70000000 5)).pins.rstN = true ∧
    (withPins State.reset (presenting 0x70000000 5)).err ≠ .invariant ∧
    (withPins State.reset (presenting 0x70000000 5)).port = .ready ∧
    (withPins State.reset (presenting 0x70000000 5)).pins.cmdValid = true ∧ Instr.step ≠ .seed := by decide
theorem witness_OnlyConditionalReseedReadsTrigger :
    Instr.reseed false ≠ .reseed true ∧ State.reset.phase = .uninit := by decide
theorem witness_ReadsHaveNoSideEffect :
    Instr.getc 127 63 ∈ [.nop, .getc 127 63, .rdb 127 7, .rdreg 15] ∧
    (∃ t, exec (.getc 127 63) (holding [(1023, 0x01)]) = .next t) ∧ ∃ t, exec (.rdreg 15) dead = .next t :=
  ⟨by decide, ⟨_, rfl⟩, ⟨_, rfl⟩⟩
theorem witness_WritesAreIdempotent :
    dead.mem.wf ∧ Instr.wrb 127 7 1 ∈ [.setc 0 0 true, .wrb 127 7 1, .clear, .seed] ∧
    (∃ t, exec (.wrb 127 7 1) dead = .next t) ∧ ∃ t, exec .clear dead = .next t :=
  ⟨dead_canonical, by decide, ⟨_, rfl⟩, ⟨_, rfl⟩⟩
theorem witness_WrbEqualsEightSetcs : dead.Inv ∧ dead.phase ≠ .uninit := ⟨dead_inv, by decide⟩
theorem witness_FrameReadout :
    dead.Inv ∧ dead.phase ≠ .uninit ∧ readFrame[0]? = some (.rdb 0 0) ∧ readFrame[1023]? = some (.rdb 127 7) :=
  ⟨dead_inv, by decide, by decide +kernel, by decide +kernel⟩
theorem witness_AllDeadFixedPoint :
    dead.mem.wf ∧ dead.phase ≠ .uninit ∧ ∀ r b, dead.readByte r b = some 0x00 := ⟨dead_canonical, by decide, dead_reads⟩
theorem witness_StepsIterateStepGrid : dead.phase ≠ .uninit ∧ ∃ g, dead.mem.grid dead.cur = some g :=
  ⟨by decide, State.exists_grid dead_written⟩

/-- Two states that differ outside the three harvested bytes. -/
theorem witness_ReseedDependsOnTheHarvestOnly :
    dead.Inv ∧ spotted.Inv ∧ dead.phase ≠ .uninit ∧ spotted.phase ≠ .uninit ∧
    dead.readByte 0 0 = spotted.readByte 0 0 ∧ dead.readByte 64 4 = spotted.readByte 64 4 ∧
    dead.readByte 32 2 = spotted.readByte 32 2 ∧ dead.readByte 5 5 ≠ spotted.readByte 5 5 := by
  refine ⟨dead_inv, spotted_inv, dead_phase, dead_phase, (readByte_writeByte_other _ (by decide)).symm,
    (readByte_writeByte_other _ (by decide)).symm, (readByte_writeByte_other _ (by decide)).symm, ?_⟩
  rw [dead_reads, spotted, readByte_writeByte_same]
  decide
theorem witness_StepKeepsTheInvariant : (dead.withFetchWord 32 0).Inv ∧ ∃ t, step (dead.withFetchWord 32 0) = .next t :=
  ⟨inv_of_busy dead_inv _ _, ⟨_, rfl⟩⟩
theorem witness_RunsFromTheInvariantAreSafe : (withPins dead (presenting 0x60000000 0)).Inv := dead_presenting_inv _ _
theorem witness_NextBufferIsUnobservable :
    SameButNext dead (plusNext dead 0xFF) ∧ dead.mem.read 1024 = none ∧
    (plusNext dead 0xFF).mem.read 1024 = some 0xFF := by
  refine ⟨sameButNext_plusNext dead_canonical rfl _, ?_, Memory.read_write_same _ _ _⟩
  rw [dead, State.clearCurrent_mem, Memory.read_fill _ _ _ deadBytes_length]
  decide
theorem witness_OnlyCompletingCommandsChangeState :
    (∃ t, step (withPins dead (presenting 0 0)) = .next t) ∧ (withPins dead (presenting 0 0)).pins.rstN = true ∧
    (withPins dead (presenting 0 0)).port ≠ .busy := ⟨⟨_, rfl⟩, rfl, by decide⟩
theorem witness_CommandsLeaveThePortInputs :
    (∃ t, exec .seed dead = .next t) ∧ ∀ cond, Instr.seed ≠ .reseed cond := ⟨⟨_, rfl⟩, by decide⟩

end Sys2Proof.Tests
end

section
/-! PROOFS. The invariant: each update a command is made of keeps it, so every command and every step does; and from it a
step always answers a next state (R36, R210). -/

namespace Sys2Proof.Machine

/-! ### Steps out of the port's cases -/

/-- What a step can do: reset, or one event of the port; then the signals advance. -/
theorem step_next_cases {s t : State} (h : step s = .next t) :
    (s.pins.rstN = false ∧ t = s.assertReset.advancePins) ∨
    (s.pins.rstN = true ∧ s.err ≠ .invariant ∧ ∃ u, portEvent s = .next u ∧ t = u.advancePins) := by
  obtain ⟨u, hu, rfl⟩ := step_next_iff.1 h
  rcases blockEdge_next hu with ⟨hr, rfl⟩ | ⟨hr, he, hu⟩
  · exact .inl ⟨hr, rfl⟩
  · exact .inr ⟨hr, he, u, hu, rfl⟩

/-- An event of the port either performs the accepted command or moves the port and nothing else of the block's registers. -/
theorem portEvent_frame_or_runCommand {s t : State} (h : portEvent s = .next t) :
    (s.port ≠ .busy ∧ t = { s with cmd := t.cmd, wdata := t.wdata, port := t.port }) ∨
    (s.port = .busy ∧ runCommand s = .next t) := by
  rcases portEvent_next h with ⟨hp, rfl⟩ | ⟨hp, -, rfl⟩ | ⟨hp, -, rfl⟩ | ⟨hp, hr⟩ | ⟨r, hp, -, rfl⟩ | ⟨r, hp, -, rfl⟩
  case inr.inr.inr.inl => exact .inr ⟨hp, hr⟩
  all_goals exact .inl ⟨by simp [hp], rfl⟩

/-! ### What keeps the invariant -/

/-- The invariant reads of the port only its response, and neither the operand nor the signals. -/
theorem State.Inv.of_port {s t : State} (h : s.Inv)
    (ht : t = { s with cmd := t.cmd, wdata := t.wdata, port := t.port, pins := t.pins, inputs := t.inputs })
    (hp : ∀ r, t.port = .responding r → s.port = .responding r) : t.Inv := by
  rw [ht]
  exact { h with errorResponse := fun r hr => h.errorResponse r (hp r hr) }

theorem State.Inv.respond {s : State} (h : s.Inv) (v : Word) : (s.respond v).Inv :=
  { h with errorResponse := by rintro _ ⟨⟩ he; cases he }

theorem State.Inv.raise {s : State} (h : s.Inv) {e : Err} (hn : e ≠ .none) (hi : e ≠ .invariant) : (s.raise e).Inv := by
  have herr : (s.raise e).err ≠ .none ∧ (s.raise e).err ≠ .invariant := by
    rw [State.raise_err]
    split
    · exact ⟨hn, hi⟩
    · exact ⟨‹_›, h.noInvariantError⟩
  exact { h with
    noInvariantError := herr.2
    errorResponse := by rintro _ ⟨⟩ -; exact ⟨rfl, herr.1⟩ }

theorem State.Inv.writeByte {s : State} (h : s.Inv) (hp : s.phase ≠ .uninit) (r : Row) (b : ByteCol) (v : Byte) :
    (s.writeByte r b v).Inv :=
  { h with
    memoryCanonical := Memory.wf_write h.memoryCanonical (gridAddr_lt _ _ _)
    currentWritten := fun _ => Memory.written_write h.memoryCanonical _ (gridAddr_lt _ _ _) (h.currentWritten hp)
    uninitAsReset := fun hu => absurd hu hp }

theorem State.Inv.clearCurrent {s : State} (h : s.Inv) : s.clearCurrent.Inv :=
  { h with
    memoryCanonical := Memory.wf_fill _ _ deadBytes_length h.memoryCanonical
    currentWritten := fun _ => Memory.written_fill _ _ _ deadBytes_length
    uninitAsReset := fun hu => nomatch hu
    seededGenZero := fun _ => rfl }

theorem State.Inv.advanceTo {s : State} (h : s.Inv) (g : Grid) : (s.advanceTo g).Inv :=
  { h with
    memoryCanonical := Memory.wf_fill _ _ (gridBytes_length g) h.memoryCanonical
    currentWritten := fun _ => Memory.written_fill _ _ _ (gridBytes_length g)
    uninitAsReset := fun hu => nomatch hu
    seededGenZero := fun hs => nomatch hs }

theorem State.Inv.applySeed {s : State} (h : s.Inv) (v : Word) : (s.applySeed v).Inv where
  memoryCanonical := by
    rw [State.applySeed_mem]; exact Memory.wf_fill _ _ (prngBytes_length _ v) h.memoryCanonical
  currentWritten := fun _ => by
    rw [State.applySeed_mem]; exact Memory.written_fill _ _ _ (prngBytes_length _ v)
  noInvariantError := h.noInvariantError
  uninitAsReset := fun hu => nomatch hu
  seededGenZero := fun _ => rfl
  prngFollowsSeed := .inr (by rw [State.applySeed_prngState, State.applySeed_seed])
  errorResponse := h.errorResponse

theorem State.Inv.markReseeded {s : State} (h : s.Inv) (hp : s.phase ≠ .uninit) : s.markReseeded.Inv :=
  { h with uninitAsReset := fun hu => absurd hu hp }

theorem State.Inv.sampleTrigger {s : State} (h : s.Inv) (hp : s.phase ≠ .uninit) : s.sampleTrigger.Inv :=
  { h with uninitAsReset := fun hu => absurd hu hp }

theorem State.Inv.latchHarvest {s u : State} (h : s.Inv) (hu : s.latchHarvest = some u) : u.Inv := by
  obtain ⟨a, b, c, -, -, -, rfl⟩ := State.latchHarvest_eq_some hu
  exact { h with }

theorem State.Inv.assertReset (s : State) : s.assertReset.Inv where
  memoryCanonical := ⟨.nil, by simp⟩
  currentWritten := fun h => absurd rfl h
  noInvariantError := nofun
  uninitAsReset := fun _ => ⟨rfl, rfl, rfl, rfl, rfl, rfl⟩
  seededGenZero := nofun
  prngFollowsSeed := .inl ⟨rfl, rfl⟩
  errorResponse := nofun

/-- A completing command keeps the invariant. -/
theorem exec_inv {i : Instr} {s t : State} (hi : s.Inv) (h : exec i s = .next t) : t.Inv := by
  cases exec_effect h with
  | nop | rdreg | getc | rdb => exact hi.respond _
  | illegalSelector => exact hi.raise nofun nofun
  | uninit => exact hi.raise nofun nofun
  | setc phase | wrb phase => exact (hi.writeByte phase _ _ _).respond 0
  | clear => exact hi.clearCurrent.respond 0
  | step => exact (hi.advanceTo _).respond 0
  | seed => exact (hi.applySeed _).respond 0
  | reseed phase harvest => exact (((hi.markReseeded phase).latchHarvest harvest).applySeed _).respond 0
  | reseedTriggered phase _ harvest => exact (((hi.sampleTrigger phase).latchHarvest harvest).applySeed _).respond 0
  | reseedNotTriggered phase => exact (hi.sampleTrigger phase).respond 0

theorem runCommand_inv {s t : State} (hi : s.Inv) (h : runCommand s = .next t) : t.Inv := by
  rcases runCommand_next h with ⟨-, rfl⟩ | ⟨i, -, hx⟩
  · exact hi.raise nofun nofun
  · exact exec_inv hi hx

theorem portEvent_inv {s t : State} (hi : s.Inv) (h : portEvent s = .next t) : t.Inv := by
  rcases portEvent_next h with ⟨-, rfl⟩ | ⟨-, -, rfl⟩ | ⟨-, -, rfl⟩ | ⟨-, hr⟩ | ⟨r, -, -, rfl⟩ | ⟨r, -, -, rfl⟩
  · exact hi.of_port rfl nofun
  · exact hi.of_port rfl nofun
  · exact hi
  · exact runCommand_inv hi hr
  · exact hi.of_port rfl nofun
  · exact hi

theorem State.Inv.advancePins {s : State} (h : s.Inv) : s.advancePins.Inv := by
  rw [s.advancePins_eq]
  exact h.of_port rfl fun _ hr => hr

theorem step_inv {s t : State} (hi : s.Inv) (h : step s = .next t) : t.Inv := by
  rcases step_next_cases h with ⟨-, rfl⟩ | ⟨-, -, u, hu, rfl⟩
  · exact (State.Inv.assertReset s).advancePins
  · exact (portEvent_inv hi hu).advancePins

/-- Settles O56: reset establishes the invariant, and every event of the port keeps it. -/
theorem stepKeepsTheInvariant : Obligations.StepKeepsTheInvariant :=
  fun _ _ hi h => step_inv hi h

/-! ### From the invariant a step answers a next state -/

theorem exists_whenInitialised {s : State} {f : State → Outcome} (h : s.phase ≠ .uninit → ∃ t, f s = .next t) :
    ∃ t, whenInitialised s f = .next t := by
  by_cases hp : s.phase = .uninit
  · exact ⟨_, whenInitialised_of_uninit f hp⟩
  · rw [whenInitialised_of_ne f hp]
    exact h hp

/-- In a written buffer the three harvested bytes can be read, so the effective RESEED completes. -/
theorem exists_reseedNow {s : State} (h : s.mem.written s.cur = true) : ∃ t, reseedNow s = .next t := by
  obtain ⟨a, ha⟩ := State.exists_readByte h 0 0
  obtain ⟨b, hb⟩ := State.exists_readByte h 64 4
  obtain ⟨c, hc⟩ := State.exists_readByte h 32 2
  rw [reseedNow, State.latchHarvest_of_reads ha hb hc]
  exact ⟨_, rfl⟩

theorem exists_reseedIfTriggered {s : State} (h : s.mem.written s.cur = true) :
    ∃ t, reseedIfTriggered s = .next t := by
  unfold reseedIfTriggered
  split
  · exact exists_reseedNow h
  · exact ⟨_, rfl⟩

/-- STEP completes where the current buffer holds a grid. -/
theorem execStep_of_grid {s : State} {g : Grid} (hp : s.phase ≠ .uninit) (hg : s.mem.grid s.cur = some g) :
    execStep s = .next ((s.advanceTo (stepGrid g)).respond 0) := by
  rw [execStep, whenInitialised_of_ne _ hp, hg]

/-- R36: where the current buffer is written in full out of UNINIT, every command completes. -/
theorem exists_exec (i : Instr) {s : State} (h : s.phase ≠ .uninit → s.mem.written s.cur = true) :
    ∃ t, exec i s = .next t := by
  cases i with
  | nop | clear | seed => exact ⟨_, rfl⟩
  | getc row | setc row | rdb row =>
    simp only [exec, execGetc, execSetc, execRdb]
    refine exists_whenInitialised fun hp => ?_
    obtain ⟨v, hv⟩ := State.exists_readByte (h hp) row _
    rw [hv]
    exact ⟨_, rfl⟩
  | wrb =>
    simp only [exec, execWrb]
    exact exists_whenInitialised fun _ => ⟨_, rfl⟩
  | step =>
    simp only [exec, execStep]
    refine exists_whenInitialised fun hp => ?_
    obtain ⟨g, hg⟩ := State.exists_grid (h hp)
    rw [hg]
    exact ⟨_, rfl⟩
  | reseed cond =>
    simp only [exec, execReseed]
    refine exists_whenInitialised fun hp => ?_
    split
    · exact exists_reseedIfTriggered (h hp)
    · exact exists_reseedNow (h hp)
  | rdreg sel =>
    simp only [exec, execRdreg]
    split <;> exact ⟨_, rfl⟩

theorem exists_portEvent {s : State} (hi : s.Inv) : ∃ t, portEvent s = .next t := by
  cases hp : s.port with
  | busy =>
    rw [portEvent_of_busy hp, runCommand]
    split
    · exact ⟨_, rfl⟩
    · exact exists_exec _ hi.currentWritten
  | inReset | ready | responding =>
    rw [portEvent, hp]
    exact ⟨_, rfl⟩

theorem exists_step {s : State} (hi : s.Inv) : ∃ t, step s = .next t := by
  suffices ∃ u, blockEdge s = .next u by
    obtain ⟨u, hu⟩ := this
    exact ⟨_, step_next_iff.2 ⟨u, hu, rfl⟩⟩
  rw [blockEdge, if_neg hi.noInvariantError]
  split
  · exact exists_portEvent hi
  · exact ⟨_, rfl⟩

/-- Settles O57: by induction on the number of steps, for a step answers a state that meets the invariant again. -/
theorem runsFromTheInvariantAreSafe : Obligations.RunsFromTheInvariantAreSafe := by
  intro k
  induction k with
  | zero => exact fun s _ => ⟨s, core_run_zero s⟩
  | succ k ih =>
    intro s hi
    obtain ⟨t, ht⟩ := exists_step hi
    obtain ⟨u, hu⟩ := ih t (step_inv hi ht)
    exact ⟨u, (core_run_of_step k ht).trans hu⟩

end Sys2Proof.Machine
end

section
/-! PROOFS. The next buffer is unobservable (R24): each update a command is made of keeps two states equal but for the bytes
of the next buffer, and each read answers both states the same. -/

namespace Sys2Proof.Machine

/-! ### The bytes of one buffer -/

/-- Every address of a buffer is the address of one of its bytes. -/
theorem exists_gridAddr_of_inBuffer {k : BufSel} {a : Nat} (h : inBuffer k a = true) :
    ∃ r b, (gridAddr k r b).toNat = a := by
  rw [inBuffer_iff] at h
  refine ⟨BitVec.ofNat 7 ((a - 1024 * k.toNat) / 8), BitVec.ofNat 3 (a % 8), ?_⟩
  simp only [gridAddr_toNat, BitVec.toNat_ofNat]
  omega

/-- What a buffer holds as a grid depends on the bytes of that buffer alone. -/
theorem Memory.grid_congr {m n : Memory} {k : BufSel} (hm : m.wf) (hn : n.wf)
    (h : ∀ r b, Memory.read n (gridAddr k r b).toNat = Memory.read m (gridAddr k r b).toNat) : n.grid k = m.grid k := by
  have hw : n.written k = m.written k := by
    rw [Bool.eq_iff_iff, Memory.written_iff hn, Memory.written_iff hm]
    refine forall₂_congr fun a ha => ?_
    obtain ⟨r, b, rfl⟩ := exists_gridAddr_of_inBuffer ha
    rw [h]
  have hc : ∀ r c, n.cell k r c = m.cell k r c := fun r c => by rw [Memory.cell, h, Memory.cell]
  simp only [Memory.grid, hw, hc]

/-! ### Updates of two states that differ in the next buffer -/

section SameButNext

variable {s t : State}

theorem SameButNext.cur_eq (h : SameButNext s t) : t.cur = s.cur := (congrArg State.cur h.rest :)

/-- An update that leaves the grid and CUR of both states. -/
theorem SameButNext.of_mem_eq (h : SameButNext s t) {s' t' : State} (hm : s'.mem = s.mem) (hc : s'.cur = s.cur)
    (ht : t' = { s' with mem := t.mem }) : SameButNext s' t' := by
  have hcur := h.cur_eq
  subst ht
  refine ⟨hm ▸ h.canonicalLeft, h.canonicalRight, rfl, fun r b => ?_⟩
  have hr := h.current r b
  simp only [State.readByte, State.curAddr, hm, hc, hcur] at hr ⊢
  exact hr

theorem SameButNext.readReg_eq (h : SameButNext s t) (sel : BitVec 4) : t.readReg sel = s.readReg sel :=
  (congrArg (State.readReg · sel) h.rest :)

theorem SameButNext.grid_eq (h : SameButNext s t) : t.mem.grid t.cur = s.mem.grid s.cur := by
  have hr := h.current
  simp only [State.readByte, State.curAddr, h.cur_eq] at hr
  rw [h.cur_eq]
  exact Memory.grid_congr h.canonicalLeft h.canonicalRight hr

theorem SameButNext.respond (h : SameButNext s t) (v : Word) : SameButNext (s.respond v) (t.respond v) :=
  h.of_mem_eq rfl rfl (congrArg (State.respond · v) h.rest)

theorem SameButNext.raise (h : SameButNext s t) (e : Err) : SameButNext (s.raise e) (t.raise e) :=
  h.of_mem_eq rfl rfl (congrArg (State.raise · e) h.rest)

theorem SameButNext.markReseeded (h : SameButNext s t) : SameButNext s.markReseeded t.markReseeded :=
  h.of_mem_eq rfl rfl (congrArg State.markReseeded h.rest)

theorem SameButNext.sampleTrigger (h : SameButNext s t) : SameButNext s.sampleTrigger t.sampleTrigger :=
  h.of_mem_eq rfl rfl (congrArg State.sampleTrigger h.rest)

theorem SameButNext.writeByte (h : SameButNext s t) (r : Row) (b : ByteCol) (v : Byte) :
    SameButNext (s.writeByte r b v) (t.writeByte r b v) := by
  refine ⟨Memory.wf_write h.canonicalLeft (gridAddr_lt _ _ _), Memory.wf_write h.canonicalRight (gridAddr_lt _ _ _),
    ?_, fun r' b' => ?_⟩
  · exact (congrArg (State.writeByte · r b v) h.rest).trans (by simp only [State.writeByte, State.curAddr, h.cur_eq])
  · have hr := h.current r' b'
    simp only [State.readByte, State.curAddr, State.writeByte_mem, State.writeByte_cur, Memory.read_write, h.cur_eq] at hr ⊢
    rw [hr]

/-- An update that fills in both states, with the same bytes, the buffer that is current after it. -/
theorem SameButNext.of_fill (h : SameButNext s t) {s' t' : State} {vs : List Byte} (hv : vs.length = Config.bytesPerGrid)
    (hs : s'.mem = s.mem.fill s'.cur vs) (ht : t' = { s' with mem := t.mem.fill s'.cur vs }) : SameButNext s' t' := by
  subst ht
  refine ⟨hs ▸ Memory.wf_fill _ _ hv h.canonicalLeft, Memory.wf_fill _ _ hv h.canonicalRight, rfl, fun r b => ?_⟩
  simp only [State.readByte, State.curAddr, hs, Memory.read_fill_gridAddr _ _ _ hv]

theorem SameButNext.clearCurrent (h : SameButNext s t) : SameButNext s.clearCurrent t.clearCurrent :=
  h.of_fill deadBytes_length rfl (congrArg State.clearCurrent h.rest)

theorem SameButNext.advanceTo (h : SameButNext s t) (g : Grid) : SameButNext (s.advanceTo g) (t.advanceTo g) :=
  h.of_fill (gridBytes_length g) rfl (congrArg (State.advanceTo · g) h.rest)

theorem SameButNext.applySeed (h : SameButNext s t) (v : Word) : SameButNext (s.applySeed v) (t.applySeed v) :=
  h.of_fill (prngBytes_length _ v) (State.applySeed_mem s v) (congrArg (State.applySeed · v) h.rest)

/-- Both states latch the same three bytes, or neither can. -/
theorem SameButNext.latchHarvest_eq (h : SameButNext s t) :
    t.latchHarvest = s.latchHarvest.map fun u => { u with mem := t.mem } := by
  simp only [State.latchHarvest, h.current]
  split
  · rw [Option.map_some, h.rest]
  · rfl

theorem SameButNext.of_latchHarvest (h : SameButNext s t) {u : State} (hu : s.latchHarvest = some u) :
    SameButNext u { u with mem := t.mem } := by
  obtain ⟨a, b, c, -, -, -, rfl⟩ := State.latchHarvest_eq_some hu
  exact h.of_mem_eq rfl rfl rfl

/-! ### Outcomes of two states that differ in the next buffer -/

theorem SameButNext.whenInitialised (h : SameButNext s t) {f : State → Outcome} (hf : OutcomesSameButNext (f s) (f t)) :
    OutcomesSameButNext (whenInitialised s f) (whenInitialised t f) := by
  have hphase : t.phase = s.phase := (congrArg State.phase h.rest :)
  by_cases hp : s.phase = .uninit
  · rw [whenInitialised_of_uninit f hp, whenInitialised_of_uninit f (hphase.trans hp)]
    exact h.raise _
  · rw [whenInitialised_of_ne f hp, whenInitialised_of_ne f (hphase ▸ hp)]
    exact hf

theorem SameButNext.withByte (h : SameButNext s t) (r : Row) (b : ByteCol) {f g : Byte → Outcome}
    (hf : ∀ v, OutcomesSameButNext (f v) (g v)) :
    OutcomesSameButNext (withByte (s.readByte r b) f) (withByte (t.readByte r b) g) := by
  rw [h.current]
  cases s.readByte r b with
  | none => rfl
  | some v => exact hf v

theorem SameButNext.reseedNow (h : SameButNext s t) : OutcomesSameButNext (reseedNow s) (reseedNow t) := by
  simp only [Machine.reseedNow, h.latchHarvest_eq]
  cases hu : s.latchHarvest with
  | none => rfl
  | some u => exact ((h.of_latchHarvest hu).applySeed _).respond 0

theorem SameButNext.reseedIfTriggered (h : SameButNext s t) :
    OutcomesSameButNext (reseedIfTriggered s) (reseedIfTriggered t) := by
  have htrig : t.trig = s.trig := (congrArg State.trig h.rest :)
  simp only [Machine.reseedIfTriggered, htrig]
  split
  · exact h.reseedNow
  · exact h.respond 0

end SameButNext

/-- Settles O58: each command reads the current buffer and the registers alone, and writes the same in both states. -/
theorem nextBufferIsUnobservable : Obligations.NextBufferIsUnobservable := by
  intro i s t h
  cases i with
  | nop => exact h.respond 0
  | getc =>
    simp only [exec, execGetc]
    exact h.whenInitialised (h.withByte _ _ fun _ => h.respond _)
  | setc =>
    simp only [exec, execSetc]
    exact h.whenInitialised (h.withByte _ _ fun _ => (h.writeByte _ _ _).respond 0)
  | rdb =>
    simp only [exec, execRdb]
    exact h.whenInitialised (h.withByte _ _ fun _ => h.respond _)
  | wrb =>
    simp only [exec, execWrb]
    exact h.whenInitialised ((h.writeByte _ _ _).respond 0)
  | clear => exact h.clearCurrent.respond 0
  | step =>
    simp only [exec, execStep]
    refine h.whenInitialised ?_
    rw [h.grid_eq]
    cases s.mem.grid s.cur with
    | none => rfl
    | some g => exact (h.advanceTo _).respond 0
  | seed =>
    have hwdata : t.wdata = s.wdata := (congrArg State.wdata h.rest :)
    simp only [exec, execSeed, hwdata]
    exact (h.applySeed _).respond 0
  | reseed cond =>
    simp only [exec, execReseed]
    refine h.whenInitialised ?_
    cases cond with
    | false => exact h.markReseeded.reseedNow
    | true => exact h.sampleTrigger.reseedIfTriggered
  | rdreg sel =>
    simp only [exec, execRdreg, h.readReg_eq]
    cases s.readReg sel with
    | none => exact h.raise _
    | some v => exact h.respond v

end Sys2Proof.Machine
end

section
/-! PROOFS. The registers: the fields of STATUS, what each command and each step does to a register, the state after n STEPs
and the state after reset (R23 to R31, R35). -/

namespace Sys2Proof.Machine

/-! ### STATUS -/

/-- Settles O19: each field is cut out of the concatenation of R29, the fields below it skipped one by one. -/
theorem statusFields : Obligations.StatusFields := by
  intro s
  refine ⟨?phase, ?cur, ?rs, ?err, ?zeros, rfl⟩ <;> unfold State.status
  case phase =>
    rw [extractLsb'_append_low]
    cases s.phase <;> rfl
  case cur =>
    rw [BitVec.extractLsb'_append_eq_of_le (by decide)]
    exact extractLsb'_append_low _ _
  case rs =>
    rw [BitVec.getLsbD_append, BitVec.getLsbD_append, BitVec.getLsbD_append]
    cases s.rs <;> rfl
  case err =>
    iterate 3 rw [BitVec.extractLsb'_append_eq_of_le (by decide)]
    exact (extractLsb'_append_low _ _).trans (by cases s.err <;> rfl)
  case zeros =>
    iterate 4 rw [BitVec.extractLsb'_append_eq_of_le (by decide)]
    rfl

/-! ### What one command does to a register

Each register's statement takes the cases of `Effect` apart. A harvest changes no register, so a reseeding RESEED changes
those that its fill and its mark change. -/

/-- The latch changes nothing but the harvested bytes. -/
theorem State.latchHarvest_frame {s u : State} (h : s.latchHarvest = some u) : u = { s with harvest := u.harvest } := by
  obtain ⟨a, b, c, -, -, -, rfl⟩ := State.latchHarvest_eq_some h
  rfl

/-- Settles O60: the updates that commands are made of leave the port's inputs. -/
theorem commandsLeaveThePortInputs : Obligations.CommandsLeaveThePortInputs := by
  intro i s t h
  cases exec_effect h with
  | reseed _ harvest | reseedTriggered _ _ harvest =>
    rw [State.latchHarvest_frame harvest]
    simp
  | _ => simp

/-- Settles O34: the fills set GEN to 0, STEP adds 1, and no other effect writes it. -/
theorem generationCounter : Obligations.GenerationCounter := by
  intro i s t h
  cases exec_effect h with
  | uninit needs phase =>
    cases i with
    | clear | seed => cases needs
    | _ => simp [phase]
  | step phase => simp [phase]
  | reseed phase => simp [phase, reseedEffective]
  | reseedTriggered phase trigger | reseedNotTriggered phase trigger => simp [phase, trigger, reseedEffective]
  | _ => simp

/-- CUR is one bit: inverting it takes it from 1. -/
theorem not_eq_one_sub (k : BufSel) : ~~~k = 1 - k := by decide +revert

/-- Settles O35: only the effect of STEP writes CUR. -/
theorem onlyStepWritesCur : Obligations.OnlyStepWritesCur := by
  intro i s t h
  cases exec_effect h with
  | uninit _ phase => simp [phase]
  | step phase => simp [phase, not_eq_one_sub]
  | reseed _ harvest | reseedTriggered _ _ harvest =>
    rw [State.latchHarvest_frame harvest]
    simp
  | _ => simp

/-- Settles O36: RS is written by the mark and by the trigger sample of RESEED. -/
theorem reseededFlag : Obligations.ReseededFlag := by
  intro i s t h
  cases exec_effect h with
  | uninit _ phase => cases i <;> simp [phase]
  | reseed phase harvest | reseedTriggered phase _ harvest =>
    rw [State.latchHarvest_frame harvest]
    simp [phase]
  | reseedNotTriggered phase => simp [phase]
  | _ => simp

/-- Settles O37: SEED and PRNG_STATE are written by `applySeed` alone, in the effects of SEED and of a reseeding RESEED. -/
theorem seedRegistersWrittenOnlyBySeeding : Obligations.SeedRegistersWrittenOnlyBySeeding := by
  intro i s t h hne
  cases exec_effect h with
  | seed => exact .inl rfl
  | reseed phase => exact .inr ⟨false, rfl, phase, rfl⟩
  | reseedTriggered phase trigger => exact .inr ⟨true, rfl, phase, trigger⟩
  | _ => simp at hne

/-! ### What one step does to ERR and PHASE -/

theorem err_of_exec {i : Instr} {s t : State} (h : exec i s = .next t) (he : s.err ≠ .none) : t.err = s.err := by
  cases exec_effect h with
  | illegalSelector | uninit => simp [he]
  | reseed _ harvest | reseedTriggered _ _ harvest =>
    rw [State.latchHarvest_frame harvest]
    simp
  | _ => simp

theorem err_of_portEvent {s t : State} (h : portEvent s = .next t) (he : s.err ≠ .none) : t.err = s.err := by
  rcases portEvent_frame_or_runCommand h with ⟨-, hf⟩ | ⟨-, hc⟩
  · rw [hf]
  · rcases runCommand_next hc with ⟨-, rfl⟩ | ⟨i, -, hx⟩
    · simp [he]
    · exact err_of_exec hx he

/-- Settles O10: an event of the port keeps a recorded error, and reset clears it. -/
theorem firstErrorWinsUntilReset : Obligations.FirstErrorWinsUntilReset := by
  intro s t h
  rcases step_next_cases h with ⟨hr, rfl⟩ | ⟨hr, -, u, hu, rfl⟩
  · simp [hr]
  · simpa [hr] using err_of_portEvent hu

/-- A step that completes no legal command leaves PHASE. -/
theorem phase_of_step_without_command {s t : State} (h : step s = .next t) (hr : s.pins.rstN = true)
    (hn : s.port ≠ .busy ∨ decode s.cmd = none) : t.phase = s.phase := by
  rcases step_next_cases h with ⟨h0, -⟩ | ⟨-, -, u, hu, rfl⟩
  · simp [hr] at h0
  rw [State.advancePins_phase]
  rcases portEvent_frame_or_runCommand hu with ⟨-, hf⟩ | ⟨hb, hc⟩
  · rw [hf]
  rcases runCommand_next hc with ⟨-, rfl⟩ | ⟨i, hi, -⟩
  · rfl
  · simp [hb, hi] at hn

theorem phase_of_step_in_reset {s t : State} (h : step s = .next t) (hr : s.pins.rstN = false) : t.phase = .uninit := by
  rcases step_next_cases h with ⟨-, rfl⟩ | ⟨h1, -⟩
  · simp
  · simp [hr] at h1

/-- Settles O33: the commands by their effects, the steps by the cases of a step. -/
theorem phaseTransitions : Obligations.PhaseTransitions := by
  refine ⟨fun i s t h => ?_, fun _ _ => phase_of_step_without_command, fun _ _ => phase_of_step_in_reset,
    rfl, rfl, rfl, rfl, fun p => by cases p <;> decide⟩
  cases exec_effect h with
  | uninit needs phase =>
    cases i with
    | clear | seed => cases needs
    | _ => simp [phase]
  | step phase => simp [phase]
  | reseed phase => simp [phase, reseedEffective]
  | reseedTriggered phase trigger | reseedNotTriggered phase trigger => simp [phase, trigger, reseedEffective]
  | _ => simp

/-! ### STEP, repeated -/

/-- CUR is one bit: inverting it counts it up. -/
theorem not_eq_add_one (k : BufSel) : ~~~k = k + 1 := by decide +revert

/-- Counting `n` up after one is counting `n + 1` up. -/
theorem add_one_add_ofNat {w : Nat} (x : BitVec w) (n : Nat) : x + 1 + BitVec.ofNat w n = x + BitVec.ofNat w (n + 1) := by
  rw [BitVec.ofNat_add, ← BitVec.add_assoc]
  exact add_right_comm _ _ _

/-- Settles O51: by induction on the number of STEPs, each of which leaves the next generation in the current buffer. -/
theorem stepsIterateStepGrid : Obligations.StepsIterateStepGrid := by
  intro n
  induction n with
  | zero =>
    intro s g _ hg
    exact ⟨s, rfl, hg, by simp⟩
  | succ n ih =>
    intro s g hp hg
    have hnext : ((s.advanceTo (stepGrid g)).respond 0).mem.grid ((s.advanceTo (stepGrid g)).respond 0).cur =
        some (stepGrid g) := Memory.grid_fill_gridBytes _ _ _
    obtain ⟨t, ht, hgrid, hgen, hcur, hrest⟩ := ih _ _ (by simp) hnext
    refine ⟨t, ?_, hgrid, hgen.trans (add_one_add_ofNat _ n), ?_, hrest⟩
    · rw [List.replicate_succ, execAll_cons, exec, execStep_of_grid hp hg, andThen_next, ht]
    · rw [hcur, State.respond_cur, State.advanceTo_cur, not_eq_add_one, add_one_add_ofNat]

/-! ### The state after reset -/

/-- Settles O13: every field is as R35's table says. -/
theorem resetValues : Obligations.ResetValues :=
  ⟨Memory.read_nil, by decide⟩

/-- Settles O55: the state after reset is the one a step in reset leaves, but for the port. -/
theorem resetMeetsTheInvariant : Obligations.ResetMeetsTheInvariant :=
  (State.Inv.assertReset State.reset).of_port rfl nofun

end Sys2Proof.Machine
end

section
/-! PROOFS. The grid address space: every address names one byte, every cell one bit of one byte, and the frame readout goes
through the addresses of the current buffer in order (R50, R51, R53). -/

namespace Sys2Proof.Machine

/-! ### Addresses and bytes -/

/-- Every address of the grid address space lies in one of the two buffers. -/
theorem exists_inBuffer_of_lt {a : Nat} (h : a < Config.gridSpace) : ∃ k, inBuffer k a = true := by
  have ha : a < 2048 := h
  by_cases hlow : a < 1024
  · exact ⟨0, (inBuffer_iff _ _).2 ⟨Nat.zero_le _, hlow⟩⟩
  · exact ⟨1, (inBuffer_iff _ _).2 ⟨not_lt.1 hlow, ha⟩⟩

/-- An address is put together from its buffer, row and byte column. -/
theorem gridAddr_inj {k k' : BufSel} {r r' : Row} {b b' : ByteCol} :
    gridAddr k r b = gridAddr k' r' b' ↔ k = k' ∧ r = r' ∧ b = b' := by
  rw [gridAddr, gridAddr, append_eq_append_iff, append_eq_append_iff, and_assoc]

/-- Settles O20: an address lies in some buffer, so it is the address of a byte, and the parts of an address can be read off. -/
theorem gridAddressesNameBytes : Obligations.GridAddressesNameBytes := by
  refine ⟨gridAddr_toNat, fun a ha => ?_⟩
  obtain ⟨k, hk⟩ := exists_inBuffer_of_lt ha
  obtain ⟨r, b, rfl⟩ := exists_gridAddr_of_inBuffer hk
  exact ⟨k, r, b, rfl, fun k' r' b' h => gridAddr_inj.1 (BitVec.eq_of_toNat_eq h)⟩

/-! ### Cells and bits -/

theorem toNat_eq_byteOf_posOf (c : Col) : c.toNat = 8 * (byteOf c).toNat + (posOf c).toNat := by
  rw [← colAt_toNat, colAt_byteOf_posOf]

theorem byteOf_toNat (c : Col) : (byteOf c).toNat = c.toNat / 8 := by
  have := toNat_eq_byteOf_posOf c
  have := (posOf c).isLt
  omega

theorem posOf_toNat (c : Col) : (posOf c).toNat = c.toNat % 8 := by
  have := toNat_eq_byteOf_posOf c
  have := (posOf c).isLt
  omega

/-- R51: byte column `b`, bit `i` holds column `8b + 7 - i`. -/
theorem colOfBit_toNat (b : ByteCol) (i : BitPos) : (colOfBit b i).toNat = 8 * b.toNat + 7 - i.toNat := by
  have hi : i ≤ 7 := BitVec.le_def.2 (Nat.le_of_lt_succ i.isLt)
  rw [colOfBit, colAt_toNat, BitVec.toNat_sub_of_le hi]
  exact (Nat.add_sub_assoc hi _).symm

/-- Settles O21: byte column and place of a column are its quotient and remainder by 8, and these determine the column. -/
theorem cellsNameBits : Obligations.CellsNameBits := by
  refine ⟨fun m k r c => ?cell, colOfBit_toNat, fun r r' c c' hbyte hbit => ?apart⟩
  case cell =>
    rw [Memory.cell, gridAddr_toNat, byteOf_toNat]
    simp only [byteCell, bitIndex, posOf_toNat]
  case apart =>
    have hc := c.isLt
    have hc' := c'.isLt
    exact ⟨BitVec.eq_of_toNat_eq (by omega), BitVec.eq_of_toNat_eq (by omega)⟩

/-! ### Frame order -/

/-- Frame byte `n` of buffer `k` is at the `n`-th address of the buffer (R53). -/
theorem gridAddr_frame {n : Nat} (h : n < Config.bytesPerGrid) (k : BufSel) :
    (gridAddr k (frameRow n) (frameByteCol n)).toNat = 1024 * k.toNat + n := by
  have hn : n < 1024 := h
  simp only [gridAddr_toNat, frameRow, frameByteCol, BitVec.toNat_ofNat]
  omega

/-- The `n`-th command of the frame readout reads frame byte `n` (R90). -/
theorem readFrame_getElem? {n : Nat} {i : Instr} (h : readFrame[n]? = some i) :
    n < Config.bytesPerGrid ∧ i = .rdb (frameRow n) (frameByteCol n) := by
  obtain ⟨hn, rfl⟩ := List.getElem?_eq_some_iff.1 h
  refine ⟨by simpa only [readFrame, List.length_map, List.length_range] using hn, ?_⟩
  simp only [readFrame, List.getElem_map, List.getElem_range, frameRow, frameByteCol]

end Sys2Proof.Machine
end

section
/-! PROOFS. Commands that read and commands that write: what is read leaves the state, and a write repeated writes nothing new
(R59, R101, R105). -/

namespace Sys2Proof.Machine

/-! ### `Effect` is exact -/

/-- Every case of `Effect` is the next state that its command answers: the converse of `exec_effect`. -/
theorem exec_of_effect {i : Instr} {s t : State} (h : Effect s i t) : exec i s = .next t := by
  cases h with
  | nop | clear => rfl
  | seed => rw [exec, execSeed]
  | rdreg reg | illegalSelector reg => rw [exec, execRdreg, reg]
  | uninit needs phase =>
    cases i with
    | nop | clear | seed | rdreg => cases needs
    | _ =>
      rw [exec]
      exact whenInitialised_of_uninit _ phase
  | getc phase byte => rw [exec, execGetc, whenInitialised_of_ne _ phase, byte, withByte_some]
  | setc phase byte => rw [exec, execSetc, whenInitialised_of_ne _ phase, byte, withByte_some]
  | rdb phase read => rw [exec, execRdb, whenInitialised_of_ne _ phase, read, withByte_some]
  | wrb phase => rw [exec, execWrb, whenInitialised_of_ne _ phase]
  | step phase grid => exact execStep_of_grid phase grid
  | reseed phase harvest =>
    rw [exec, execReseed, whenInitialised_of_ne _ phase, if_neg Bool.false_ne_true, reseedNow, harvest]
  | reseedTriggered phase trigger harvest =>
    rw [exec, execReseed, whenInitialised_of_ne _ phase, if_pos rfl, reseedIfTriggered, State.sampleTrigger_trig,
      trigger, if_pos rfl, reseedNow, harvest]
  | reseedNotTriggered phase trigger =>
    rw [exec, execReseed, whenInitialised_of_ne _ phase, if_pos rfl, reseedIfTriggered, State.sampleTrigger_trig,
      trigger, if_neg Bool.false_ne_true]

/-! ### The frame readout -/

/-- Settles O43: the byte at address `n` of a written buffer has a value, and the `n`-th command reads it. -/
theorem frameReadout : Obligations.FrameReadout := by
  intro s n i hi hp h
  obtain ⟨hn, rfl⟩ := readFrame_getElem? h
  obtain ⟨v, hv⟩ := State.exists_readByte (hi.currentWritten hp) (frameRow n) (frameByteCol n)
  refine ⟨v, ?_, exec_of_effect (.rdb hp hv)⟩
  rwa [State.readByte, State.curAddr, gridAddr_frame hn] at hv

/-! ### Updates repeated -/

@[simp] theorem State.respond_respond (s : State) (v w : Word) : (s.respond v).respond w = s.respond w := rfl

/-- The first error wins (R211), so raising it again changes nothing. -/
@[simp] theorem State.raise_raise (s : State) (e : Err) : (s.raise e).raise e = s.raise e := by
  by_cases h : s.err = .none <;> simp [State.raise, h]

@[simp] theorem Memory.write_write (m : Memory) (a : Nat) (v w : Byte) :
    Memory.write (Memory.write m a v) a w = Memory.write m a w := by
  induction m with
  | nil => simp [Memory.write]
  | cons x m ih =>
    obtain ⟨x, u⟩ := x
    rcases lt_trichotomy a x with h | rfl | h
    · simp [Memory.write, h]
    · simp [Memory.write]
    · simp [Memory.write, h.not_gt, h.ne', ih]

theorem Memory.fill_fill {m : Memory} (h : m.wf) (k : BufSel) {vs ws : List Byte} (hv : vs.length = Config.bytesPerGrid)
    (hw : ws.length = Config.bytesPerGrid) : (Memory.fill m k vs).fill k ws = m.fill k ws := by
  refine Memory.ext_read (Memory.wf_fill k ws hw (Memory.wf_fill k vs hv h)) (Memory.wf_fill k ws hw h) fun a => ?_
  rw [Memory.read_fill _ _ _ hw, Memory.read_fill _ _ _ hv, Memory.read_fill _ _ _ hw]
  split <;> rfl

/-- Two bytes with the same eight cells are equal. -/
theorem byte_ext_byteCell {v w : Byte} (h : ∀ p, byteCell v p = byteCell w p) : v = w := by
  refine BitVec.eq_of_getMsbD_eq fun i hi => ?_
  have hp := h (BitVec.ofNat 3 i)
  rwa [byteCell_eq_getMsbD, byteCell_eq_getMsbD, BitVec.toNat_ofNat, Nat.mod_eq_of_lt hi] at hp

@[simp] theorem setByteCell_setByteCell (old : Byte) (p : BitPos) (c : Bool) :
    setByteCell (setByteCell old p c) p c = setByteCell old p c := by
  refine byte_ext_byteCell fun q => ?_
  simp only [byteCell_setByteCell]
  split <;> rfl

@[simp] theorem State.writeByte_writeByte (s : State) (r : Row) (b : ByteCol) (v w : Byte) :
    (s.writeByte r b v).writeByte r b w = s.writeByte r b w := by
  simp [State.writeByte, State.curAddr]

@[simp] theorem State.writeByte_readByte_same (s : State) (r : Row) (b : ByteCol) (v : Byte) :
    (s.writeByte r b v).readByte r b = some v := Memory.read_write_same _ _ _

theorem State.clearCurrent_clearCurrent {s : State} (h : s.mem.wf) : s.clearCurrent.clearCurrent = s.clearCurrent := by
  simp only [State.clearCurrent, Memory.fill_fill h _ deadBytes_length deadBytes_length]

theorem State.applySeed_applySeed {s : State} (h : s.mem.wf) (v : Word) :
    (s.applySeed v).applySeed v = s.applySeed v := by
  simp only [State.applySeed, Memory.fill_fill h _ (prngBytes_length _ v) (prngBytes_length _ v)]

/-! An update of the current buffer neither reads nor writes the response. -/

@[simp] theorem State.respond_writeByte (s : State) (v : Word) (r : Row) (b : ByteCol) (x : Byte) :
    (s.respond v).writeByte r b x = (s.writeByte r b x).respond v := rfl

@[simp] theorem State.respond_clearCurrent (s : State) (v : Word) :
    (s.respond v).clearCurrent = s.clearCurrent.respond v := rfl

@[simp] theorem State.respond_applySeed (s : State) (v w : Word) :
    (s.respond v).applySeed w = (s.applySeed w).respond v := by
  simp only [State.applySeed, State.respond]

/-! ### Commands repeated -/

/-- Which selectors name a register does not depend on the state (R32). -/
theorem State.readReg_eq_none_iff (s : State) (sel : BitVec 4) : s.readReg sel = none ↔ 4 ≤ sel := by
  change _ ↔ 4 ≤ sel.toNat
  unfold State.readReg
  split
  case h_5 =>
    simp only [imp_false, true_iff] at *
    omega
  all_goals simp [*]

/-- A command whose effect leaves the state as it is answers that state. -/
theorem exec_self_of_effect {i : Instr} {s t : State} (h : Effect s i t) (e : t = s) : exec i s = .next s :=
  (exec_of_effect h).trans (congrArg _ e)

/-- A command that raised ERR_UNINIT raises it again. -/
theorem exec_raise_uninit {i : Instr} {s : State} (needs : needsBuffer i = true) (phase : s.phase = .uninit) :
    exec i (s.raise .uninit) = .next (s.raise .uninit) :=
  exec_self_of_effect (.uninit needs phase) (s.raise_raise _)

/-- Settles O40: a reading command responds or raises an error, and what it reads is in neither. -/
theorem readsHaveNoSideEffect : Obligations.ReadsHaveNoSideEffect := by
  intro row col byte sel i s t hi h
  cases exec_effect h with
  | nop => exact ⟨rfl, exec_of_effect .nop⟩
  | rdreg reg => exact ⟨rfl, exec_of_effect (.rdreg reg)⟩
  | illegalSelector reg =>
    rw [State.readReg_eq_none_iff] at reg
    have again : (s.raise .illegal).readReg _ = none := (State.readReg_eq_none_iff _ _).2 reg
    exact ⟨rfl, exec_self_of_effect (.illegalSelector again) (s.raise_raise _)⟩
  | uninit needs phase => exact ⟨rfl, exec_raise_uninit needs phase⟩
  | getc phase byte => exact ⟨rfl, exec_of_effect (.getc phase byte)⟩
  | rdb phase read => exact ⟨rfl, exec_of_effect (.rdb phase read)⟩
  | _ => simp at hi

/-- Settles O41: each update these commands make, made again with the same operands, changes nothing. -/
theorem writesAreIdempotent : Obligations.WritesAreIdempotent := by
  intro row col v byte data i s t hm hi h
  cases exec_effect h with
  | uninit needs phase => exact exec_raise_uninit needs phase
  | setc phase =>
    exact exec_self_of_effect (.setc phase (State.writeByte_readByte_same _ _ _ _)) (by simp)
  | wrb phase => exact exec_self_of_effect (.wrb phase) (by simp)
  | clear => exact exec_self_of_effect .clear (by simp [State.clearCurrent_clearCurrent hm])
  | seed => exact exec_self_of_effect .seed (by simp [State.applySeed_applySeed hm])
  | _ => simp at hi

end Sys2Proof.Machine
end

section
/-! PROOFS. Command words: a word is the word of a command exactly when it matches the command's row of the opcode map and holds
the command's fields, so the decoder and the encoder are inverse to each other (R76 to R91). -/

namespace Sys2Proof

/-! ### A run of bits against its parts -/

/-- A word is put together from two parts exactly when they are its top and its low bits. -/
theorem append_eq_iff {k n : Nat} {a : BitVec k} {b : BitVec n} {w : BitVec (k + n)} :
    a ++ b = w ↔ w.extractLsb' n k = a ∧ w.extractLsb' 0 n = b := by
  rw [eq_comm, ← append_eq_append_iff, append_extractLsb']

theorem extractLsb'_eq_append_iff {m k n : Nat} {w : BitVec m} {i : Nat} {a : BitVec k} {b : BitVec n} :
    w.extractLsb' i (k + n) = a ++ b ↔ w.extractLsb' (i + n) k = a ∧ w.extractLsb' i n = b := by
  rw [← append_eq_append_iff, BitVec.extractLsb'_append_extractLsb'_eq_extractLsb' rfl]

theorem extractLsb'_eq_zero_iff {m : Nat} {w : BitVec m} {i : Nat} (k n : Nat) :
    w.extractLsb' i (k + n) = 0 ↔ w.extractLsb' (i + n) k = 0 ∧ w.extractLsb' i n = 0 := by
  rw [← extractLsb'_eq_append_iff]
  simp

theorem extractLsb'_eq_ofBool_iff {m : Nat} {w : BitVec m} {i : Nat} {v : Bool} :
    w.extractLsb' i 1 = BitVec.ofBool v ↔ w.getLsbD i = v := by
  rw [BitVec.getLsbD_eq_extractLsb']
  generalize w.extractLsb' i 1 = b
  decide +revert

/-! ### The word of a command, by row and fields -/

section
variable {w : Word} {row : Row} {col : Col} {byte : ByteCol}

theorem encode_nop_eq_iff : encode .nop = w ↔ nopRow.matchesWord w = true := by
  rw [nopRow_matches, encode, append_eq_iff, fieldOp]; rfl

theorem encode_clear_eq_iff : encode .clear = w ↔ clearRow.matchesWord w = true := by
  rw [clearRow_matches, encode, append_eq_iff, fieldOp]; rfl

theorem encode_step_eq_iff : encode .step = w ↔ stepRow.matchesWord w = true := by
  rw [stepRow_matches, encode, append_eq_iff, fieldOp]; rfl

theorem encode_seed_eq_iff : encode .seed = w ↔ seedRow.matchesWord w = true := by
  rw [seedRow_matches, encode, append_eq_iff, fieldOp]; rfl

theorem encode_getc_eq_iff :
    encode (.getc row col) = w ↔ getcRow.matchesWord w = true ∧ fieldRow w = row ∧ fieldCol w = col := by
  rw [getcRow_matches, encode, append_eq_iff, extractLsb'_eq_append_iff, extractLsb'_eq_append_iff,
    extractLsb'_eq_append_iff, extractLsb'_eq_zero_iff 1 14, fieldOp, fieldRow, fieldCol]
  tauto

theorem encode_setc_eq_iff {v : Bool} :
    encode (.setc row col v) = w ↔
      setcRow.matchesWord w = true ∧ fieldRow w = row ∧ fieldCol w = col ∧ fieldV w = v := by
  rw [setcRow_matches, encode, append_eq_iff, extractLsb'_eq_append_iff, extractLsb'_eq_append_iff,
    extractLsb'_eq_append_iff, extractLsb'_eq_ofBool_iff, fieldOp, fieldRow, fieldCol, fieldV]
  tauto

theorem encode_rdb_eq_iff :
    encode (.rdb row byte) = w ↔ rdbRow.matchesWord w = true ∧ fieldRow w = row ∧ fieldByte w = byte := by
  rw [rdbRow_matches, encode, append_eq_iff, extractLsb'_eq_append_iff, extractLsb'_eq_append_iff,
    extractLsb'_eq_append_iff, extractLsb'_eq_zero_iff 10 8, fieldOp, fieldRow, fieldByte]
  tauto

theorem encode_wrb_eq_iff {data : Byte} :
    encode (.wrb row byte data) = w ↔
      wrbRow.matchesWord w = true ∧ fieldRow w = row ∧ fieldByte w = byte ∧ fieldData w = data := by
  rw [wrbRow_matches, encode, append_eq_iff, extractLsb'_eq_append_iff, extractLsb'_eq_append_iff,
    extractLsb'_eq_append_iff, fieldOp, fieldRow, fieldByte, fieldData]
  tauto

theorem encode_reseed_eq_iff {cond : Bool} :
    encode (.reseed cond) = w ↔ reseedRow.matchesWord w = true ∧ fieldCond w = cond := by
  rw [reseedRow_matches, encode, append_eq_iff, extractLsb'_eq_append_iff, extractLsb'_eq_ofBool_iff, fieldOp, fieldCond]
  tauto

theorem encode_rdreg_eq_iff {sel : BitVec 4} :
    encode (.rdreg sel) = w ↔ rdregRow.matchesWord w = true ∧ fieldSel w = sel := by
  rw [rdregRow_matches, encode, append_eq_iff, extractLsb'_eq_append_iff, fieldOp, fieldSel]
  tauto

end

/-! ### Decoder and encoder -/

/-- Settles O2: the row a decoded word matches and the fields read from it put the word together again. -/
theorem encodeOfDecode : Obligations.EncodeOfDecode := by
  intro w i h
  unfold decode at h
  split at h
  case isTrue m => cases h; exact ⟨rfl, encode_nop_eq_iff.2 m⟩
  split at h
  case isTrue m => cases h; exact ⟨rfl, encode_getc_eq_iff.2 ⟨m, rfl, rfl⟩⟩
  split at h
  case isTrue m => cases h; exact ⟨rfl, encode_setc_eq_iff.2 ⟨m, rfl, rfl, rfl⟩⟩
  split at h
  case isTrue m => cases h; exact ⟨rfl, encode_rdb_eq_iff.2 ⟨m, rfl, rfl⟩⟩
  split at h
  case isTrue m => cases h; exact ⟨rfl, encode_wrb_eq_iff.2 ⟨m, rfl, rfl, rfl⟩⟩
  split at h
  case isTrue m => cases h; exact ⟨rfl, encode_clear_eq_iff.2 m⟩
  split at h
  case isTrue m => cases h; exact ⟨rfl, encode_step_eq_iff.2 m⟩
  split at h
  case isTrue m => cases h; exact ⟨rfl, encode_seed_eq_iff.2 m⟩
  split at h
  case isTrue m => cases h; exact ⟨rfl, encode_reseed_eq_iff.2 ⟨m, rfl⟩⟩
  split at h
  case isTrue m =>
    split at h
    case isTrue le => cases h; exact ⟨decide_eq_true le, encode_rdreg_eq_iff.2 ⟨m, rfl⟩⟩
    case isFalse => cases h
  case isFalse => cases h

/-- Settles O1: the word of a command holds its opcode, its fields and zeros, so the command's row is the first that matches. -/
theorem decodeOfEncode : Obligations.DecodeOfEncode := by
  intro i hi
  generalize hw : encode i = w
  simp only [decode, nopRow_matches, getcRow_matches, setcRow_matches, rdbRow_matches, wrbRow_matches, clearRow_matches,
    stepRow_matches, seedRow_matches, reseedRow_matches, rdregRow_matches]
  cases i with
  | nop =>
    obtain ⟨op, zero⟩ := (nopRow_matches w).1 (encode_nop_eq_iff.1 hw)
    simp [op, zero]
  | getc =>
    obtain ⟨m, rfl, rfl⟩ := encode_getc_eq_iff.1 hw
    obtain ⟨op, zero⟩ := (getcRow_matches w).1 m
    simp [op, zero]
  | setc =>
    obtain ⟨m, rfl, rfl, rfl⟩ := encode_setc_eq_iff.1 hw
    obtain ⟨op, zero⟩ := (setcRow_matches w).1 m
    simp [op, zero]
  | rdb =>
    obtain ⟨m, rfl, rfl⟩ := encode_rdb_eq_iff.1 hw
    obtain ⟨op, zero⟩ := (rdbRow_matches w).1 m
    simp [op, zero]
  | wrb =>
    obtain ⟨m, rfl, rfl, rfl⟩ := encode_wrb_eq_iff.1 hw
    obtain ⟨op, zero⟩ := (wrbRow_matches w).1 m
    simp [op, zero]
  | clear =>
    obtain ⟨op, zero⟩ := (clearRow_matches w).1 (encode_clear_eq_iff.1 hw)
    simp [op, zero]
  | step =>
    obtain ⟨op, zero⟩ := (stepRow_matches w).1 (encode_step_eq_iff.1 hw)
    simp [op, zero]
  | seed =>
    obtain ⟨op, zero⟩ := (seedRow_matches w).1 (encode_seed_eq_iff.1 hw)
    simp [op, zero]
  | reseed =>
    obtain ⟨m, rfl⟩ := encode_reseed_eq_iff.1 hw
    obtain ⟨op, zero⟩ := (reseedRow_matches w).1 m
    simp [op, zero]
  | rdreg =>
    obtain ⟨m, rfl⟩ := encode_rdreg_eq_iff.1 hw
    obtain ⟨op, zero⟩ := (rdregRow_matches w).1 m
    have le : fieldSel w ≤ 3 := of_decide_eq_true hi
    simpa [op, zero] using le

/-- Settles O3: by opcode; a reserved one matches no row, each other leaves its own row, and with it its reserved bits. -/
theorem illegalWordsAreExactlyTheReserved : Obligations.IllegalWordsAreExactlyTheReserved := by
  intro w
  simp only [decode, nopRow_matches, getcRow_matches, setcRow_matches, rdbRow_matches, wrbRow_matches, clearRow_matches,
    stepRow_matches, seedRow_matches, reseedRow_matches, rdregRow_matches, fieldOp, fieldSel]
  generalize w.extractLsb' 28 4 = op
  by_cases reserved : 0xA#4 ≤ op
  · have ne : ∀ k < 0xA#4, op ≠ k := fun k hk h => absurd (h ▸ reserved) (BitVec.not_le.2 hk)
    simp [reserved, ne]
  · have legal : op = 0x0 ∨ op = 0x1 ∨ op = 0x2 ∨ op = 0x3 ∨ op = 0x4 ∨ op = 0x5 ∨ op = 0x6 ∨ op = 0x7 ∨ op = 0x8 ∨
        op = 0x9 := by decide +revert
    rcases legal with rfl | rfl | rfl | rfl | rfl | rfl | rfl | rfl | rfl | rfl
    case inr.inr.inr.inr.inr.inr.inr.inr.inr =>
      by_cases sel : w.extractLsb' 0 4 ≤ 3#4
      · simp [sel]
      · simp [sel, BitVec.not_le.1 sel]
    all_goals simp

end Sys2Proof
end

section
/-! PROOFS. The assembler: the spec's encoding examples, and the operands a line may have (R89 to R91). -/

namespace Sys2Proof.Machine

/-! ### Words -/

/-- Settles O4: the twelve words are computed, and decoding undoes encoding. -/
theorem encodingExamples : Obligations.EncodingExamples := by
  intro p hp
  have h : p.1.wellFormed = true ∧ encode p.1 = p.2 := by revert p; decide
  exact ⟨h.2, h.2 ▸ decodeOfEncode p.1 h.1⟩

/-- All words of a line are legal. -/
def LegalWords (ws : List PortWords) : Prop := ∀ p ∈ ws, (decode p.1).isSome = true

theorem isSome_decode_encode {i : Instr} (h : i.wellFormed = true) : (decode (encode i)).isSome = true := by
  rw [decodeOfEncode i h, Option.isSome_some]

theorem legalWords_single {i : Instr} (h : i.wellFormed = true) (d : Word) : LegalWords [(encode i, d)] := by
  rintro p hp
  rw [List.mem_singleton.1 hp]
  exact isSome_decode_encode h

theorem legalWords_flatMap_plain {is : List Instr} (h : ∀ i ∈ is, i.wellFormed = true) :
    LegalWords (is.flatMap plain) := by
  intro p hp
  obtain ⟨i, hi, hp⟩ := List.mem_flatMap.1 hp
  exact legalWords_single (h i hi) 0 p hp

theorem legalWords_append_iff {us vs : List PortWords} : LegalWords (us ++ vs) ↔ LegalWords us ∧ LegalWords vs :=
  List.forall_mem_append

theorem readFrame_wellFormed : ∀ i ∈ readFrame, i.wellFormed = true := by
  simp [readFrame, Instr.wellFormed]

theorem sel_wellFormed (name : RegName) : (Instr.rdreg name.sel).wellFormed = true := by cases name <;> rfl

theorem legalWords_plain {i : Instr} (h : i.wellFormed = true) : LegalWords (plain i) := legalWords_single h 0

/-- One of the eight stores of `wrrow`. -/
theorem legalWords_store {r : Row} {b : ByteCol} {o : Option Byte} {ws : List PortWords}
    (h : o.map (fun v => plain (.wrb r b v)) = some ws) : LegalWords ws := by
  obtain ⟨v, -, rfl⟩ := Option.map_eq_some_iff.1 h
  exact legalWords_plain rfl

/-- Settles O6: a line stands for words of well-formed commands only, and such a word decodes to its command. -/
theorem assembledWordsAreLegal : Obligations.AssembledWordsAreLegal := by
  intro line ws h
  change LegalWords ws
  cases line <;>
    simp only [AsmLine.assemble, Option.bind_eq_bind, Option.bind_eq_some_iff, Option.pure_def, Option.some.injEq] at h
  case nop | clear | step | reseed | reseedT => exact h ▸ legalWords_plain rfl
  case rdreg name => exact h ▸ legalWords_plain (sel_wellFormed name)
  case seed =>
    obtain ⟨imm, -, rfl⟩ := h
    exact legalWords_single rfl imm
  case getc | rdb | live | kill =>
    obtain ⟨_, -, _, -, rfl⟩ := h
    exact legalWords_plain rfl
  case setc | wrb =>
    obtain ⟨_, -, _, -, _, -, rfl⟩ := h
    exact legalWords_plain rfl
  case wrrow =>
    obtain ⟨_, -, _, h0, _, h1, _, h2, _, h3, _, h4, _, h5, _, h6, _, h7, rfl⟩ := h
    simp only [legalWords_append_iff]
    exact ⟨⟨⟨⟨⟨⟨⟨legalWords_store h0, legalWords_store h1⟩, legalWords_store h2⟩, legalWords_store h3⟩,
      legalWords_store h4⟩, legalWords_store h5⟩, legalWords_store h6⟩, legalWords_store h7⟩
  case rdframe => exact h ▸ legalWords_flatMap_plain readFrame_wellFormed
  case generation =>
    refine h ▸ legalWords_flatMap_plain fun i hi => ?_
    simp only [List.mem_append, List.mem_cons, List.not_mem_nil, or_false] at hi
    rcases hi with (rfl | hi) | rfl
    · rfl
    · exact readFrame_wellFormed i hi
    · rfl

/-! ### Operands -/

/-- A line whose first operand must fit in `w` bits is refused for that operand or for what comes after it. -/
theorem bind_operand_eq_none_iff {α : Type} {w n : Nat} {f : BitVec w → Option α} {p : Prop} (h : ∀ v, f v = none ↔ p) :
    (operand w n).bind f = none ↔ 2 ^ w ≤ n ∨ p := by
  unfold operand
  split
  case isTrue lt => simp [h, Nat.not_le.2 lt]
  case isFalse le => simp [Nat.not_lt.1 le]

theorem bind_operandBit_eq_none_iff {α : Type} {n : Nat} {f : Bool → Option α} {p : Prop} (h : ∀ v, f v = none ↔ p) :
    (operandBit n).bind f = none ↔ 2 ^ 1 ≤ n ∨ p := by
  rw [operandBit, Option.map_eq_bind, Option.bind_assoc]
  exact bind_operand_eq_none_iff fun v => h (v == 1)

/-- Settles O5: a line is refused for one operand or for the ones after it, and is accepted once no operand is left. -/
theorem assemblerRefusesOutOfRange : Obligations.AssemblerRefusesOutOfRange := by
  intro row col v byte data imm
  have accepted (ws : List PortWords) : some ws = none ↔ False := iff_false_intro (Option.some_ne_none ws)
  refine ⟨.trans (bind_operand_eq_none_iff fun r => bind_operand_eq_none_iff fun c => accepted _) ?getc,
    .trans (bind_operand_eq_none_iff fun r => bind_operand_eq_none_iff fun c =>
      bind_operandBit_eq_none_iff fun v => accepted _) ?setc,
    .trans (bind_operand_eq_none_iff fun r => bind_operand_eq_none_iff fun b => accepted _) ?rdb,
    .trans (bind_operand_eq_none_iff fun r => bind_operand_eq_none_iff fun b =>
      bind_operand_eq_none_iff fun d => accepted _) ?wrb,
    .trans (bind_operand_eq_none_iff fun v => accepted _) ?seed⟩
  case getc | setc | rdb | wrb | seed => rw [or_false]; rfl

end Sys2Proof.Machine
end

section
/-! PROOFS. The command port: the moves of the handshake, what a step that performs no command keeps, and that an accepted command
completes (R72 to R75, R203, R227). -/

namespace Sys2Proof.Machine

/-! ### The moves of the port -/

/-- Out of reset and with no ERR_INVARIANT recorded, a step is an event of the port; then the signals advance. -/
theorem step_of_portEvent {s t : State} (hr : s.pins.rstN = true) (he : s.err ≠ .invariant) (h : portEvent s = .next t) :
    step s = .next t.advancePins :=
  step_next_iff.2 ⟨t, by rw [blockEdge, if_pos hr, if_neg he, h], rfl⟩

theorem portEvent_of_released {s : State} (hp : s.port = .inReset) : portEvent s = .next { s with port := .ready } := by
  rw [portEvent, hp]

theorem portEvent_of_presented {s : State} (hp : s.port = .ready) (hv : s.pins.cmdValid = true) :
    portEvent s = .next s.accept := by
  rw [portEvent, hp, hv]; rfl

theorem portEvent_of_idle {s : State} (hp : s.port = .ready) (hv : s.pins.cmdValid = false) : portEvent s = .next s := by
  rw [portEvent, hp, hv]; rfl

theorem portEvent_of_taken {s : State} {r : Response} (hp : s.port = .responding r) (hv : s.pins.rspReady = true) :
    portEvent s = .next { s with port := .ready } := by
  rw [portEvent, hp, hv]; rfl

theorem portEvent_of_waiting {s : State} {r : Response} (hp : s.port = .responding r) (hv : s.pins.rspReady = false) :
    portEvent s = .next s := by
  rw [portEvent, hp, hv]; rfl

/-- Settles O15: each move is one case of the event of the port. -/
theorem portMoves : Obligations.PortMoves := fun _ hr he =>
  ⟨fun hp => step_of_portEvent hr he (portEvent_of_released hp),
    fun hp hv => step_of_portEvent hr he (portEvent_of_presented hp hv),
    fun hp hv => step_of_portEvent hr he (portEvent_of_idle hp hv),
    fun _ hp hv => step_of_portEvent hr he (portEvent_of_taken hp hv),
    fun _ hp hv => step_of_portEvent hr he (portEvent_of_waiting hp hv)⟩

/-- The two cases of the inputs in one equation: with no further input the signals hold. -/
theorem State.advancePins_eq_head (s : State) :
    s.advancePins = { s with pins := s.inputs.head?.getD s.pins, inputs := s.inputs.tail } := by
  cases h : s.inputs with
  | nil => rw [State.advancePins_of_nil h, List.head?_nil, Option.getD_none, List.tail_nil, ← h]
  | cons p ps => rw [State.advancePins_of_cons h, List.head?_cons, Option.getD_some, List.tail_cons]

theorem runCommand_of_decode {s : State} {i : Instr} (h : decode s.cmd = some i) : runCommand s = exec i s := by
  rw [runCommand, h]

/-- Settles O7: the event of a busy port is the performance of the decoded command. -/
theorem stepPerformsTheAcceptedCommand : Obligations.StepPerformsTheAcceptedCommand := by
  intro s i hr he hp hd
  simp only [← State.advancePins_eq_head]
  rw [step, blockStep, blockEdge, if_pos hr, if_neg he, portEvent_of_busy hp, runCommand_of_decode hd]
  rfl

/-! ### A step that performs no command -/

/-- Settles O59: the event of a port that is not busy moves the port alone. -/
theorem onlyCompletingCommandsChangeState : Obligations.OnlyCompletingCommandsChangeState := by
  intro s t h hr hp
  rcases step_next_cases h with ⟨h0, -⟩ | ⟨-, -, u, hu, rfl⟩
  · simp [hr] at h0
  rcases portEvent_frame_or_runCommand hu with ⟨-, hf⟩ | ⟨hb, -⟩
  · rw [State.advancePins_eq, hf]
    exact ⟨rfl, rfl⟩
  · exact absurd hb hp

/-- Log 17: a completing command, legal or not, keeps the accepted word and operand. -/
theorem cmd_wdata_of_runCommand {s t : State} (h : runCommand s = .next t) : t.cmd = s.cmd ∧ t.wdata = s.wdata := by
  rcases runCommand_next h with ⟨-, rfl⟩ | ⟨i, -, hx⟩
  · exact ⟨rfl, rfl⟩
  · obtain ⟨hcmd, hwdata, -⟩ := commandsLeaveThePortInputs i s t hx
    exact ⟨hcmd, hwdata⟩

/-- Settles O18: only the acceptance of a command samples, and it needs a ready port. -/
theorem busyPortSamplesNothing : Obligations.BusyPortSamplesNothing := by
  intro s t hr hp h
  refine ⟨by simp [State.cmdReady, hp], ?_⟩
  rcases step_next_cases h with ⟨h0, -⟩ | ⟨-, -, u, hu, rfl⟩
  · simp [hr] at h0
  rw [State.advancePins_cmd, State.advancePins_wdata]
  rcases portEvent_next hu with ⟨-, rfl⟩ | ⟨hready, -, -⟩ | ⟨hready, -, -⟩ | ⟨-, hc⟩ | ⟨r, -, -, rfl⟩ | ⟨r, -, -, rfl⟩
  · exact ⟨rfl, rfl⟩
  · exact absurd hready hp
  · exact absurd hready hp
  · exact cmd_wdata_of_runCommand hc
  · exact ⟨rfl, rfl⟩
  · exact ⟨rfl, rfl⟩

/-! ### An accepted command completes -/

/-- Performing a command ends with its response presented (R73, R74). -/
theorem exists_response_of_exec {i : Instr} {s t : State} (h : exec i s = .next t) : ∃ r, t.port = .responding r := by
  cases exec_effect h <;> exact ⟨_, rfl⟩

theorem exists_response_of_runCommand {s t : State} (h : runCommand s = .next t) : ∃ r, t.port = .responding r := by
  rcases runCommand_next h with ⟨-, rfl⟩ | ⟨i, -, hx⟩
  · exact ⟨_, rfl⟩
  · exact exists_response_of_exec hx

/-- Settles O16: a step from the invariant answers a state, it meets the invariant again, and it presents a response. -/
theorem acceptedCommandCompletes : Obligations.AcceptedCommandCompletes := by
  intro s hi hr hp
  obtain ⟨u, hu⟩ := exists_portEvent hi
  have hstep := step_of_portEvent hr hi.noInvariantError hu
  rw [portEvent_of_busy hp] at hu
  obtain ⟨r, hresp⟩ := exists_response_of_runCommand hu
  rw [← State.advancePins_port] at hresp
  exact ⟨_, r, hstep, hresp, fun he => ((step_inv hi hstep).errorResponse r hresp he).1⟩

/-- With no further inputs the signals hold, so a step is the event of the port. -/
theorem step_of_portEvent_held {s t : State} (hi : s.Inv) (hr : s.pins.rstN = true) (h : portEvent s = .next t)
    (ht : t.inputs = []) : step s = .next t := by
  rw [step_of_portEvent hr hi.noInvariantError h, State.advancePins_of_nil ht]

/-- Settles O17: the command is accepted, performed, and its response taken. -/
theorem handshakePerformsOneCommand : Obligations.HandshakePerformsOneCommand := by
  intro s i hi hp hin hr hv hrr hd
  have hacc : s.accept.Inv := hi.of_port rfl nofun
  obtain ⟨t, ht⟩ := exists_exec i hacc.currentWritten
  obtain ⟨r, hresp⟩ := exists_response_of_exec ht
  obtain ⟨-, -, hpins, hinputs, -⟩ := commandsLeaveThePortInputs i _ t ht
  rw [State.accept_pins] at hpins
  rw [State.accept_inputs, hin] at hinputs
  have accepted : step s = .next s.accept := step_of_portEvent_held hi hr (portEvent_of_presented hp hv) hin
  have performed : step s.accept = .next t :=
    step_of_portEvent_held hacc hr ((portEvent_of_busy rfl).trans ((runCommand_of_decode hd).trans ht)) hinputs
  have taken : step t = .next { t with port := .ready } :=
    step_of_portEvent_held (exec_inv hacc ht) (hpins ▸ hr) (portEvent_of_taken hresp (hpins ▸ hrr)) hinputs
  refine ⟨t, r, ht, hresp, ?_⟩
  rw [core_run_of_step 2 accepted, core_run_of_step 1 performed, core_run_of_step 0 taken, core_run_zero]

end Sys2Proof.Machine
end

section
/-! PROOFS. What a command reads of the port: only SEED its operand, and only a conditional RESEED out of UNINIT the trigger. Both are
one statement on `withInputs`, by the updates that commands are made of (R72, R185, R211). -/

namespace Sys2Proof.Machine

/-- The state with another operand and other signals. -/
def State.withInputs (s : State) (d : Word) (p : Pins) : State := { s with wdata := d, pins := p }

/-- The state an outcome answers, with another operand and other signals. -/
def outcomeWithInputs (d : Word) (p : Pins) (o : Outcome) : Outcome := andThen o fun t => .next (t.withInputs d p)

section
variable {s : State} {d : Word} {p : Pins}

/-! ### The updates a command is made of -/

theorem State.withInputs_readByte (r : Row) (b : ByteCol) : (s.withInputs d p).readByte r b = s.readByte r b := rfl

theorem State.withInputs_trig : (s.withInputs d p).trig = s.trig := rfl

theorem State.withInputs_wdata : (s.withInputs d p).wdata = d := rfl

theorem State.withInputs_readReg (sel : BitVec 4) : (s.withInputs d p).readReg sel = s.readReg sel := rfl

theorem State.withInputs_grid : (s.withInputs d p).mem.grid (s.withInputs d p).cur = s.mem.grid s.cur := rfl

theorem State.withInputs_applySeed (v : Word) : (s.withInputs d p).applySeed v = (s.applySeed v).withInputs d p := by
  simp only [State.applySeed, State.withInputs]

theorem State.withInputs_sampleTrigger (h : p.trigger = s.pins.trigger) :
    (s.withInputs d p).sampleTrigger = s.sampleTrigger.withInputs d p := by
  simp only [State.sampleTrigger, State.withInputs, h]

theorem State.withInputs_latchHarvest :
    (s.withInputs d p).latchHarvest = s.latchHarvest.map fun u => u.withInputs d p := by
  unfold State.latchHarvest
  simp only [State.withInputs_readByte]
  split <;> rfl

theorem whenInitialised_withInputs {f : State → Outcome}
    (h : s.phase ≠ .uninit → f (s.withInputs d p) = outcomeWithInputs d p (f s)) :
    whenInitialised (s.withInputs d p) f = outcomeWithInputs d p (whenInitialised s f) := by
  by_cases hp : s.phase = .uninit
  · rw [whenInitialised_of_uninit f hp, whenInitialised_of_uninit f (s := s.withInputs d p) hp]
    rfl
  · rw [whenInitialised_of_ne f hp, whenInitialised_of_ne f (s := s.withInputs d p) hp]
    exact h hp

theorem withByte_withInputs {v : Option Byte} {f g : Byte → Outcome} (h : ∀ b, f b = outcomeWithInputs d p (g b)) :
    withByte v f = outcomeWithInputs d p (withByte v g) := by
  cases v with
  | none => rfl
  | some b => exact h b

theorem reseedNow_withInputs : reseedNow (s.withInputs d p) = outcomeWithInputs d p (reseedNow s) := by
  unfold reseedNow
  rw [State.withInputs_latchHarvest]
  cases s.latchHarvest with
  | none => rfl
  | some u =>
    simp only [Option.map_some, State.withInputs_applySeed]
    rfl

theorem reseedIfTriggered_withInputs :
    reseedIfTriggered (s.withInputs d p) = outcomeWithInputs d p (reseedIfTriggered s) := by
  rw [reseedIfTriggered, reseedIfTriggered, State.withInputs_trig]
  split
  · exact reseedNow_withInputs
  · rfl

/-! ### Commands -/

/-- The outcome of a command does not depend on an input that it does not read. -/
theorem exec_withInputs (i : Instr) (seed : i = .seed → d = s.wdata)
    (reseed : i = .reseed true → s.phase ≠ .uninit → p.trigger = s.pins.trigger) :
    exec i (s.withInputs d p) = outcomeWithInputs d p (exec i s) := by
  cases i with
  | nop | clear => rfl
  | getc | setc | rdb =>
    simp only [exec, execGetc, execSetc, execRdb]
    exact whenInitialised_withInputs fun _ => withByte_withInputs fun _ => rfl
  | wrb =>
    simp only [exec, execWrb]
    exact whenInitialised_withInputs fun _ => rfl
  | step =>
    simp only [exec, execStep]
    refine whenInitialised_withInputs fun _ => ?_
    rw [State.withInputs_grid]
    cases s.mem.grid s.cur <;> rfl
  | seed =>
    rw [exec, exec, execSeed, execSeed, State.withInputs_applySeed, State.withInputs_wdata, seed rfl]
    rfl
  | reseed cond =>
    simp only [exec, execReseed]
    refine whenInitialised_withInputs fun hp => ?_
    cases cond with
    | false => exact reseedNow_withInputs (s := s.markReseeded)
    | true =>
      rw [if_pos rfl, if_pos rfl, State.withInputs_sampleTrigger (reseed rfl hp)]
      exact reseedIfTriggered_withInputs
  | rdreg sel =>
    simp only [exec, execRdreg, State.withInputs_readReg]
    cases s.readReg sel <;> rfl

end

/-! ### The operand and the trigger -/

theorem andThen_congr {o : Outcome} {f g : State → Outcome} (h : ∀ t, o = .next t → f t = g t) :
    andThen o f = andThen o g := by
  cases o with
  | next t => exact h t rfl
  | fault | refused => rfl

/-- Settles O38: acceptance samples both words, and the performance of a command is independent of an operand it does not read. -/
theorem onlySeedReadsWdata : Obligations.OnlySeedReadsWdata := by
  refine ⟨fun s hr he hp hv => ?sample, fun i s v hi => ?others, fun s v => ?total⟩
  case sample =>
    obtain ⟨-, accept, -⟩ := portMoves s hr he
    exact ⟨_, accept hp hv, by simp, by simp⟩
  case others =>
    refine (exec_withInputs (d := v) (p := s.pins) i (absurd · hi) fun _ _ => rfl).trans (andThen_congr fun t h => ?_)
    obtain ⟨-, -, hpins, -⟩ := commandsLeaveThePortInputs i s t h
    rw [State.withInputs, ← hpins]
  case total => exact ⟨_, exec_of_effect .seed, State.applySeed_seed { s with wdata := v } v, rfl⟩

/-- Settles O39: the performance of a command is independent of a trigger it does not read, and it leaves the signals. -/
theorem onlyConditionalReseedReadsTrigger : Obligations.OnlyConditionalReseedReadsTrigger := by
  intro i s b hi
  refine (exec_withInputs (d := s.wdata) (p := { s.pins with trigger := b }) i (fun _ => rfl)
    fun h hp => absurd hi (by simp [h, hp])).trans (andThen_congr fun t h => ?_)
  obtain ⟨-, hwdata, hpins, -⟩ := commandsLeaveThePortInputs i s t h
  rw [State.withInputs, ← hpins, ← hwdata]

end Sys2Proof.Machine
end

section
/-! PROOFS. The grid access commands: what GETC and RDB respond with, which bits SETC, WRB and CLEAR write and which they leave, and
that WRB is the eight SETCs of its byte (R100 to R110). -/

namespace Sys2Proof.Machine

/-! ### The bit of a cell -/

theorem bitIndex_posOf (c : Col) : bitIndex (posOf c) = 7 - c.toNat % 8 := by
  rw [bitIndex, posOf_toNat]

/-- Bit `i` of a byte is its position `7 - i` from the left (R51). -/
theorem bitIndex_seven_sub (i : BitPos) : bitIndex (7 - i) = i.toNat := by decide +revert

/-- A cell write sets the bit of the cell and keeps every other bit. -/
theorem getLsbD_setByteCell (old : Byte) (p : BitPos) (c : Bool) (i : Nat) :
    (setByteCell old p c).getLsbD i = if i = bitIndex p then c else old.getLsbD i := by
  by_cases hi : i < 8
  · obtain ⟨q, rfl⟩ : ∃ q : BitPos, bitIndex q = i :=
      ⟨7 - BitVec.ofNat 3 i, by rw [bitIndex_seven_sub, BitVec.toNat_ofNat, Nat.mod_eq_of_lt hi]⟩
    have hqp : bitIndex q = bitIndex p ↔ q = p := by decide +revert
    simp only [hqp]
    exact byteCell_setByteCell old p q c
  · have hp : i ≠ bitIndex p := by unfold bitIndex; omega
    rw [if_neg hp, BitVec.getLsbD_of_ge _ _ (not_lt.1 hi), BitVec.getLsbD_of_ge _ _ (not_lt.1 hi)]

/-! ### Reading -/

/-- Settles O24: the cell is the byte's bit `7 - COL mod 8`, and the two words it may be are its zero-extensions. -/
theorem getcReturnsTheCell : Obligations.GetcReturnsTheCell := by
  intro row col s v hp hv
  rw [exec_of_effect (.getc hp hv), byteCell, bitIndex_posOf]
  cases v.getLsbD (7 - col.toNat % 8) <;> rfl

/-- Settles O25: the response is the byte of the `rdb` case of `Effect`. -/
theorem rdbReturnsTheByte : Obligations.RdbReturnsTheByte :=
  fun _ _ _ _ hp hv => exec_of_effect (.rdb hp hv)

/-! ### Writing one cell or one byte -/

/-- Settles O26: the byte written is the old one with the cell set, and a byte write is read at its own address alone. -/
theorem setcWritesOneCell : Obligations.SetcWritesOneCell := by
  intro row col v s old hp hv
  refine ⟨_, setByteCell old (posOf col) v, exec_of_effect (.setc hp hv), rfl, Memory.read_write_same _ _ _, ?cell,
    fun i hi => ?others, fun a ha => Memory.read_write_other _ _ ha⟩
  case cell => rw [getLsbD_setByteCell, bitIndex_posOf, if_pos rfl]
  case others => rw [getLsbD_setByteCell, bitIndex_posOf, if_neg hi]

/-- Settles O27: a byte write is read at its own address alone. -/
theorem wrbWritesOneByte : Obligations.WrbWritesOneByte :=
  fun _ _ _ _ hp => ⟨_, exec_of_effect (.wrb hp), rfl, Memory.read_write_same _ _ _,
    fun _ ha => Memory.read_write_other _ _ ha⟩

/-! ### Writing a whole buffer -/

/-- A whole-buffer write leaves every address outside the buffer. -/
theorem Memory.read_fill_outside (m : Memory) {k : BufSel} {vs : List Byte} (hv : vs.length = Config.bytesPerGrid) {a : Nat}
    (ha : a < 1024 * k.toNat ∨ 1024 * k.toNat + 1024 ≤ a) : (Memory.fill m k vs).read a = Memory.read m a := by
  have hout : ¬ inBuffer k a = true := by rw [inBuffer_iff]; omega
  rw [Memory.read_fill m k vs hv, if_neg hout]

/-- Every byte CLEAR stores is 0. -/
theorem deadBytes_getElem? (r : Row) (b : ByteCol) : deadBytes[8 * r.toNat + b.toNat]? = some 0x00 := by
  have hr := r.isLt
  have hb := b.isLt
  have hlt : 8 * r.toNat + b.toNat < Config.bytesPerGrid := by simp only [Config.bytesPerGrid]; omega
  rw [deadBytes, List.getElem?_replicate, if_pos hlt]

/-- Settles O28: CLEAR fills the current buffer with zero bytes, and a fill is read in its own buffer alone. -/
theorem clearKillsEveryCell : Obligations.ClearKillsEveryCell := by
  intro s
  refine ⟨_, exec_of_effect .clear, rfl, fun row byte => ?inside, fun a ha => ?outside⟩
  case inside => exact (Memory.read_fill_gridAddr _ _ _ deadBytes_length row byte).trans (deadBytes_getElem? row byte)
  case outside => exact Memory.read_fill_outside _ deadBytes_length ha

/-! ### A byte, cell by cell -/

/-- The byte `x` after the listed bits of `v` have been written into it, one cell write each. -/
def copyBits (v : Byte) (is : List Nat) (x : Byte) : Byte :=
  is.foldl (fun x i => setByteCell x (7 - BitVec.ofNat 3 i) (v.getLsbD i)) x

theorem copyBits_cons (v : Byte) (i : Nat) (is : List Nat) (x : Byte) :
    copyBits v (i :: is) x = copyBits v is (setByteCell x (7 - BitVec.ofNat 3 i) (v.getLsbD i)) := rfl

/-- The listed bits are those of `v`, the others are kept. -/
theorem getLsbD_copyBits (v : Byte) {is : List Nat} (h : ∀ i ∈ is, i < 8) (x : Byte) (j : Nat) :
    (copyBits v is x).getLsbD j = if j ∈ is then v.getLsbD j else x.getLsbD j := by
  induction is generalizing x with
  | nil => rfl
  | cons i is ih =>
    obtain ⟨hi, his⟩ := List.forall_mem_cons.1 h
    rw [copyBits_cons, ih his, getLsbD_setByteCell, bitIndex_seven_sub, BitVec.toNat_ofNat, Nat.mod_eq_of_lt hi]
    by_cases hj : j = i <;> simp [hj]

/-- Eight cell writes write the whole byte. -/
theorem copyBits_all (v x : Byte) : copyBits v [7, 6, 5, 4, 3, 2, 1, 0] x = v := by
  refine BitVec.eq_of_getLsbD_eq fun j hj => ?_
  have hmem : j ∈ [7, 6, 5, 4, 3, 2, 1, 0] := by simp only [List.mem_cons, List.not_mem_nil]; omega
  rw [getLsbD_copyBits v (by decide), if_pos hmem]

/-- SETC of the column that bit `i` of a byte holds. -/
theorem exec_setc_colOfBit {s : State} {row : Row} {byte : ByteCol} {x : Byte} (hp : s.phase ≠ .uninit)
    (hx : s.readByte row byte = some x) (i : BitPos) (c : Bool) :
    exec (.setc row (colOfBit byte i) c) s = .next ((s.writeByte row byte (setByteCell x (7 - i) c)).respond 0) := by
  have hbyte : byteOf (colOfBit byte i) = byte := byteOf_colAt _ _
  have hpos : posOf (colOfBit byte i) = 7 - i := posOf_colAt _ _
  rw [exec_of_effect (.setc hp (hbyte.symm ▸ hx)), hbyte, hpos]

/-- One SETC after another in one byte is one write of that byte. -/
theorem execAll_setc_colOfBit {s : State} {row : Row} {byte : ByteCol} {x : Byte} (v : Byte) (i : Nat) (is : List Nat)
    (hp : s.phase ≠ .uninit) (hx : s.readByte row byte = some x) :
    execAll ((i :: is).map fun i => .setc row (colOfBit byte (BitVec.ofNat 3 i)) (v.getLsbD i)) s =
      .next ((s.writeByte row byte (copyBits v (i :: is) x)).respond 0) := by
  induction is generalizing s i x with
  | nil =>
    rw [List.map_cons, List.map_nil, execAll_cons, exec_setc_colOfBit hp hx, andThen_next]
    rfl
  | cons j is ih =>
    rw [List.map_cons, execAll_cons, exec_setc_colOfBit hp hx, andThen_next,
      ih (s := (s.writeByte row byte _).respond 0) j hp (State.writeByte_readByte_same s row byte _)]
    simp [copyBits_cons]

/-- Settles O42: the eight SETCs are one write of their byte, and what they write there is the byte of WRB. -/
theorem wrbEqualsEightSetcs : Obligations.WrbEqualsEightSetcs := by
  intro row byte v s hi hp
  obtain ⟨x, hx⟩ := State.exists_readByte (hi.currentWritten hp) row byte
  rw [execAll_setc_colOfBit v 7 _ hp hx, copyBits_all, exec_of_effect (.wrb hp)]

end Sys2Proof.Machine
end

section
/-! PROOFS. The neighbour counter and the generation step: the moves on the torus, the eight neighbours as translations of those
of cell (0, 0), the row-parallel count, and what STEP writes (R131 to R140, R150 to R155). -/

namespace Sys2Proof.Machine

/-! ### Moves along a row -/

/-- R133: west is column 63 ahead, modulo 64. -/
theorem west_toNat (c : Col) : (west c).toNat = (c.toNat + 63) % 64 := BitVec.toNat_add _ _

/-- R133: east is column 1 ahead, modulo 64. -/
theorem east_toNat (c : Col) : (east c).toNat = (c.toNat + 1) % 64 := BitVec.toNat_add _ _

/-- Inside a byte the bit to the left is the next higher; from bit 7 it is bit 0 of the byte before. -/
theorem colOfBit_left (b : ByteCol) (i : BitPos) : colOfBit (left b i).1 (left b i).2 = west (colOfBit b i) := by
  apply BitVec.eq_of_toNat_eq
  rw [west_toNat, colOfBit_toNat, colOfBit_toNat]
  by_cases hi : i < 7
  · rw [left, if_pos hi]
    bv_omega
  · rw [left, if_neg hi]
    bv_omega

/-- Inside a byte the bit to the right is the next lower; from bit 0 it is bit 7 of the byte after. -/
theorem colOfBit_right (b : ByteCol) (i : BitPos) : colOfBit (right b i).1 (right b i).2 = east (colOfBit b i) := by
  apply BitVec.eq_of_toNat_eq
  rw [east_toNat, colOfBit_toNat, colOfBit_toNat]
  by_cases hi : 0 < i
  · rw [right, if_pos hi]
    bv_omega
  · rw [right, if_neg hi]
    bv_omega

/-- Settles O45: the move inside a byte and the move into the next byte are both one column on the torus. -/
theorem bitMovesAreColumnMoves : Obligations.BitMovesAreColumnMoves :=
  fun b i => ⟨colOfBit_toNat b i, colOfBit_left b i, colOfBit_right b i, west_toNat _, east_toNat _⟩

/-! ### The eight neighbours -/

/-- The torus looks the same from every cell: the neighbours of a cell are those of cell (0, 0), moved to it (R140). -/
theorem neighbours_eq_map_add (r : Row) (c : Col) : neighbours r c = (neighbours 0 0).map ((r, c) + ·) := by
  simp [neighbours, up, down, west, east]

theorem mem_neighbours_iff (n : Row × Col) (r : Row) (c : Col) : n ∈ neighbours r c ↔ n - (r, c) ∈ neighbours 0 0 := by
  rw [neighbours_eq_map_add, List.mem_map]
  constructor
  · rintro ⟨d, hd, rfl⟩
    rwa [add_sub_cancel_left]
  · exact fun h => ⟨_, h, add_sub_cancel _ _⟩

theorem neg_mem_neighbours_zero : ∀ d ∈ neighbours 0 0, -d ∈ neighbours 0 0 :=
  List.forall_iff_forall_mem.1 (by decide)

theorem neighbours_nodup (r : Row) (c : Col) : (neighbours r c).Nodup := by
  rw [neighbours_eq_map_add]
  exact List.Nodup.map (add_right_injective (r, c)) (by decide)

theorem self_notMem_neighbours (r : Row) (c : Col) : (r, c) ∉ neighbours r c := by
  rw [mem_neighbours_iff, sub_self]
  decide

theorem neighbour_symm {n m : Row × Col} (h : n ∈ neighbours m.1 m.2) : m ∈ neighbours n.1 n.2 := by
  rw [mem_neighbours_iff] at h ⊢
  rw [← neg_sub]
  exact neg_mem_neighbours_zero _ h

/-- The eight summands of a count, in the order of R134. -/
theorem count_eq_add (g : Grid) (r : Row) (c : Col) :
    count g r c = (g (up r) c).toNat + (g (down r) c).toNat + (g r (west c)).toNat + (g r (east c)).toNat
      + (g (up r) (west c)).toNat + (g (up r) (east c)).toNat
      + (g (down r) (west c)).toNat + (g (down r) (east c)).toNat := by
  simp [count, neighbours, add_assoc]

/-- Each of the eight neighbours counts at most 1. -/
theorem count_le (g : Grid) (r : Row) (c : Col) : count g r c ≤ 8 :=
  List.sum_le_card_nsmul _ 1 (List.forall_mem_map.2 fun _ _ => Bool.toNat_le _)

/-- Settles O46: moved to cell (0, 0), the neighbours are eight fixed cells, closed under negation. -/
theorem eightDistinctNeighbours : Obligations.EightDistinctNeighbours :=
  ⟨fun r c => ⟨rfl, neighbours_nodup r c, self_notMem_neighbours r c⟩, count_le, fun _ _ => rfl,
    fun r c r' c' => ⟨neighbour_symm (n := (r', c')) (m := (r, c)), neighbour_symm (n := (r, c)) (m := (r', c'))⟩⟩

/-! ### The row-parallel count -/

/-- R54: cell `c` of a row is bit `63 - c` of its word. -/
theorem rowWord_getLsbD (g : Grid) (r : Row) (c : Col) : (rowWord g r).getLsbD (63 - c.toNat) = g r c := by
  have hc : c.toNat < 64 := c.isLt
  have hmsb : (rowWord g r).getMsbD c.toNat = g r c := by
    refine BitVec.getMsbD_ofBoolListBE.trans ?_
    simp [hc]
  rw [← hmsb, BitVec.getMsbD_eq_getLsbD]
  simp [hc]

/-- R137: rotating a row word right brings the west neighbour to each place. -/
theorem getLsbD_rotateRight_west (w : BitVec 64) (c : Col) :
    (w.rotateRight 1).getLsbD (63 - c.toNat) = w.getLsbD (63 - (west c).toNat) := by
  have hc : c.toNat < 64 := c.isLt
  have hp : 63 - c.toNat < 64 := by omega
  rw [west_toNat, BitVec.getLsbD_rotateRight, Bool.cond_decide, decide_eq_true hp, Bool.true_and]
  split <;> congr 1 <;> omega

/-- R137: rotating a row word left brings the east neighbour to each place. -/
theorem getLsbD_rotateLeft_east (w : BitVec 64) (c : Col) :
    (w.rotateLeft 1).getLsbD (63 - c.toNat) = w.getLsbD (63 - (east c).toNat) := by
  have hc : c.toNat < 64 := c.isLt
  have hp : 63 - c.toNat < 64 := by omega
  rw [east_toNat, BitVec.getLsbD_rotateLeft, Bool.cond_decide, decide_eq_true hp, Bool.true_and]
  split <;> congr 1 <;> omega

/-- Settles O47: each of the eight bits of R137 is one neighbour. -/
theorem rowParallelCountAgrees : Obligations.RowParallelCountAgrees := by
  refine fun g r c => ⟨rowWord_getLsbD g r c, ?_⟩
  simp only [count_eq_add, countParallel, getLsbD_rotateRight_west, getLsbD_rotateLeft_east, rowWord_getLsbD]

/-! ### Translations -/

/-- Moving a cell moves its neighbours (R140). -/
theorem neighbours_sub (r dr : Row) (c dc : Col) :
    neighbours (r - dr) (c - dc) = (neighbours r c).map (· - (dr, dc)) := by
  rw [neighbours_eq_map_add, neighbours_eq_map_add r c, List.map_map]
  exact List.map_congr_left fun d _ => (add_sub_right_comm (r, c) d (dr, dc)).symm

theorem count_shiftGrid (dr : Row) (dc : Col) (g : Grid) (r : Row) (c : Col) :
    count (shiftGrid dr dc g) r c = count g (r - dr) (c - dc) := by
  rw [count, count, neighbours_sub, List.map_map]
  rfl

/-- Settles O48: a moved grid has the moved cells and the moved counts. -/
theorem stepIsTranslationInvariant : Obligations.StepIsTranslationInvariant := by
  intro dr dc g
  funext r c
  rw [stepGrid, count_shiftGrid]
  rfl

/-! ### STEP -/

/-- Settles O29: STEP fills the buffer that is not current with the bytes of the next generation, and a fill is read in its own
buffer alone. -/
theorem stepComputesTheNextGeneration : Obligations.StepComputesTheNextGeneration := by
  intro s hp hw
  obtain ⟨g, hg⟩ := State.exists_grid hw
  rw [← not_eq_one_sub]
  exact ⟨g, _, Memory.cell_of_grid hg, exec_of_effect (.step hp hg), rfl, Memory.cell_fill_gridBytes _ _ _,
    fun a ha => Memory.read_fill_outside _ (gridBytes_length _) ha⟩

end Sys2Proof.Machine
end

section
/-! PROOFS. The life rule and what it gives: STEP of an all-dead buffer, and the block and the blinker, each a check of the
finitely many cells a listed pattern can reach, carried over the torus (R152, R158, R159). -/

namespace Sys2Proof.Machine

/-! ### The life rule -/

theorem life_dead (n : Nat) : life false n = decide (n = 3) := rfl

theorem life_live (n : Nat) : life true n = decide (n = 2 ∨ n = 3) := rfl

theorem life_iff (a : Bool) (n : Nat) : life a n = true ↔ n = 3 ∨ a = true ∧ n = 2 := by
  cases a with
  | false => simp [life_dead]
  | true => simp [life_live, or_comm]

/-- Settles O44: the rule for a dead and for a live cell, and its eighteen values. -/
theorem lifeRule : Obligations.LifeRule :=
  ⟨life_iff, by decide, by decide⟩

/-! ### The all-dead buffer -/

theorem count_deadGrid (r : Row) (c : Col) : count deadGrid r c = 0 := rfl

theorem stepGrid_deadGrid : stepGrid deadGrid = deadGrid := rfl

theorem packByte_deadGrid (r : Row) (b : ByteCol) : packByte deadGrid r b = 0x00 := by
  simp only [packByte, deadGrid]
  decide

theorem byteCell_zero (p : BitPos) : byteCell 0x00 p = false := BitVec.getLsbD_zero

/-- The converse of `State.exists_readByte`, in a canonical memory. -/
theorem State.written_of_reads {s : State} (hm : s.mem.wf) (h : ∀ r b, (s.readByte r b).isSome = true) :
    s.mem.written s.cur = true := by
  rw [Memory.written_iff hm]
  intro a ha
  obtain ⟨r, b, rfl⟩ := exists_gridAddr_of_inBuffer ha
  exact h r b

/-- A buffer of zero bytes holds the all-dead grid. -/
theorem State.grid_of_zero_bytes {s : State} (hm : s.mem.wf) (h : ∀ r b, s.readByte r b = some 0x00) :
    s.mem.grid s.cur = some deadGrid := by
  obtain ⟨g, hg⟩ := State.exists_grid (State.written_of_reads hm fun r b => by rw [h]; rfl)
  have hdead : g = deadGrid := by
    funext r c
    have hc : s.mem.cell s.cur r c = some (byteCell 0x00 (posOf c)) := congrArg (Option.map _) (h r (byteOf c))
    rw [Memory.cell_of_grid hg, byteCell_zero] at hc
    exact Option.some.inj hc
  rw [hg, hdead]

/-- After a STEP the current buffer holds the bytes of the next generation. -/
theorem State.advanceTo_readByte (s : State) (g : Grid) (r : Row) (b : ByteCol) :
    (s.advanceTo g).readByte r b = some (packByte g r b) :=
  (Memory.read_fill_gridAddr _ _ _ (gridBytes_length g) r b).trans (gridBytes_getElem? g r b)

/-- Settles O49: zero bytes are the all-dead grid, a step leaves that grid, and its bytes are zero again. -/
theorem allDeadFixedPoint : Obligations.AllDeadFixedPoint := by
  refine ⟨count_deadGrid, rfl, fun s hm hp h => ?_⟩
  refine ⟨_, exec_of_effect (.step hp (State.grid_of_zero_bytes hm h)), fun r b => ?_⟩
  rw [State.respond_readByte, State.advanceTo_readByte, stepGrid_deadGrid, packByte_deadGrid]

/-! ### Listed patterns -/

/-- The cells that are listed or have a listed neighbour: no other cell is live one step later. -/
def reach (cells : List (Row × Col)) : List (Row × Col) := cells.flatMap fun m => m :: neighbours m.1 m.2

theorem mem_reach_iff {cells : List (Row × Col)} {n : Row × Col} :
    n ∈ reach cells ↔ ∃ m ∈ cells, n = m ∨ n ∈ neighbours m.1 m.2 := by
  simp only [reach, List.mem_flatMap, List.mem_cons]

theorem count_gridOf_of_notMem_reach {cells : List (Row × Col)} {r : Row} {c : Col} (h : (r, c) ∉ reach cells) :
    count (gridOf cells) r c = 0 := by
  refine List.sum_eq_zero (List.forall_mem_map.2 fun m hm => ?_)
  have hout : m ∉ cells := fun hin => h (mem_reach_iff.2 ⟨m, hin, .inr (neighbour_symm (m := (r, c)) hm)⟩)
  rw [gridOf, decide_eq_false hout, Bool.toNat_false]

theorem stepGrid_gridOf_of_notMem_reach {cells : List (Row × Col)} {r : Row} {c : Col} (h : (r, c) ∉ reach cells) :
    stepGrid (gridOf cells) r c = false := by
  have hout : (r, c) ∉ cells := fun hin => h (mem_reach_iff.2 ⟨_, hin, .inl rfl⟩)
  rw [stepGrid, count_gridOf_of_notMem_reach h, gridOf, decide_eq_false hout]
  rfl

/-- What a step makes of a listed pattern is decided by the cells in its reach. -/
theorem stepGrid_gridOf_eq {cells nextCells : List (Row × Col)} (hsub : nextCells ⊆ reach cells)
    (h : (reach cells).Forall fun n => stepGrid (gridOf cells) n.1 n.2 = gridOf nextCells n.1 n.2) :
    stepGrid (gridOf cells) = gridOf nextCells := by
  funext r c
  by_cases hn : (r, c) ∈ reach cells
  · exact List.forall_iff_forall_mem.1 h _ hn
  · rw [stepGrid_gridOf_of_notMem_reach hn, gridOf, decide_eq_false fun hin => hn (hsub hin)]

theorem shiftGrid_gridOf (dr : Row) (dc : Col) (cells : List (Row × Col)) :
    shiftGrid dr dc (gridOf cells) = gridOf (cells.map ((dr, dc) + ·)) := by
  funext r c
  refine decide_eq_decide.2 ?_
  rw [List.mem_map]
  constructor
  · exact fun h => ⟨_, h, add_sub_cancel (dr, dc) (r, c)⟩
  · rintro ⟨m, hm, hmr⟩
    rwa [← Prod.mk_sub_mk, ← hmr, add_sub_cancel_left]

/-! ### The block and the blinker -/

theorem block_eq_shiftGrid (r : Row) (c : Col) : block r c = shiftGrid r c (block 0 0) := by
  simp [block, shiftGrid_gridOf, east, down]

theorem horizontalBlinker_eq_shiftGrid (r : Row) (c : Col) :
    horizontalBlinker r c = shiftGrid r c (horizontalBlinker 0 0) := by
  simp [horizontalBlinker, shiftGrid_gridOf, west, east]

theorem verticalBlinker_eq_shiftGrid (r : Row) (c : Col) :
    verticalBlinker r c = shiftGrid r c (verticalBlinker 0 0) := by
  simp [verticalBlinker, shiftGrid_gridOf, up, down]

/-- A step commutes with a move, so what it does at cell (0, 0) it does everywhere (R140). -/
theorem stepGrid_shiftGrid_of_step {g h : Grid} (hs : stepGrid g = h) (dr : Row) (dc : Col) :
    stepGrid (shiftGrid dr dc g) = shiftGrid dr dc h :=
  hs ▸ stepIsTranslationInvariant dr dc g

theorem stepGrid_block (r : Row) (c : Col) : stepGrid (block r c) = block r c := by
  have h0 : stepGrid (block 0 0) = block 0 0 := stepGrid_gridOf_eq (by decide) (by decide)
  rw [block_eq_shiftGrid, stepGrid_shiftGrid_of_step h0]

theorem stepGrid_horizontalBlinker (r : Row) (c : Col) : stepGrid (horizontalBlinker r c) = verticalBlinker r c := by
  have h0 : stepGrid (horizontalBlinker 0 0) = verticalBlinker 0 0 := stepGrid_gridOf_eq (by decide) (by decide)
  rw [horizontalBlinker_eq_shiftGrid, verticalBlinker_eq_shiftGrid, stepGrid_shiftGrid_of_step h0]

theorem stepGrid_verticalBlinker (r : Row) (c : Col) : stepGrid (verticalBlinker r c) = horizontalBlinker r c := by
  have h0 : stepGrid (verticalBlinker 0 0) = horizontalBlinker 0 0 := stepGrid_gridOf_eq (by decide) (by decide)
  rw [horizontalBlinker_eq_shiftGrid, verticalBlinker_eq_shiftGrid, stepGrid_shiftGrid_of_step h0]

/-- Settles O50: at cell (0, 0) by the cells in the pattern's reach, elsewhere by moving the grid. -/
theorem blockAndBlinker : Obligations.BlockAndBlinker := fun r c =>
  ⟨stepGrid_block r c, stepGrid_horizontalBlinker r c,
    (congrArg stepGrid (stepGrid_horizontalBlinker r c)).trans (stepGrid_verticalBlinker r c)⟩

end Sys2Proof.Machine
end

section
/-! PROOFS. The reseeder: the seed fill and its place in the stream, the derivation of a seed from three harvested bytes, and what
SEED and the two forms of RESEED leave (R170 to R186). -/

namespace Sys2Proof.Machine

/-! ### The stream -/

/-- Settles O52: eight advances of the generator, evaluated. -/
theorem firstStreamOutputs : Obligations.FirstStreamOutputs := by
  unfold Obligations.FirstStreamOutputs
  decide

/-! ### The seed fill -/

/-- Frame byte `8r + b` of a fill is output number `8r + b + 1` of the stream (R173). -/
theorem prngBytes_frame (v : Word) (r : Row) (b : ByteCol) :
    (prngBytes Config.bytesPerGrid v)[8 * r.toNat + b.toNat]? =
      some (prngByte (prngAfter (8 * r.toNat + b.toNat + 1) v)) := by
  have hr := r.isLt
  have hb := b.isLt
  have hlt : 8 * r.toNat + b.toNat < 1024 := by omega
  exact prngBytes_getElem? _ _ v hlt

/-- After a seed fill the current buffer holds the stream in frame order, whatever it held before. -/
theorem State.applySeed_readByte (s : State) (v : Word) (r : Row) (b : ByteCol) :
    (s.applySeed v).readByte r b = some (prngByte (prngAfter (8 * r.toNat + b.toNat + 1) v)) := by
  rw [State.readByte, State.applySeed_mem, State.curAddr, State.applySeed_cur,
    Memory.read_fill_gridAddr _ _ _ (prngBytes_length _ v), prngBytes_frame]

/-- A seed fill leaves every address outside the current buffer. -/
theorem State.applySeed_mem_read_outside (s : State) (v : Word) {a : Nat}
    (ha : a < 1024 * s.cur.toNat ∨ 1024 * s.cur.toNat + 1024 ≤ a) : (s.applySeed v).mem.read a = s.mem.read a := by
  rw [State.applySeed_mem]
  exact Memory.read_fill_outside _ (prngBytes_length _ v) ha

/-- A seed fill writes the grid, PRNG_STATE, SEED, GEN and PHASE alone. -/
theorem State.applySeed_frame (s : State) (v : Word) :
    s.applySeed v = { s with
      mem := (s.applySeed v).mem, prngState := prngAfter 1024 v, seed := v, gen := 0, phase := .seeded } := by
  simp only [State.applySeed]

/-- Settles O30: SEED is the seed fill of its operand. -/
theorem seedFillsTheCurrentBuffer : Obligations.SeedFillsTheCurrentBuffer := fun s =>
  ⟨_, exec_of_effect .seed, (congrArg (State.respond · 0) (s.applySeed_frame s.wdata) :),
    s.applySeed_readByte s.wdata, fun _ => s.applySeed_mem_read_outside s.wdata⟩

/-! ### The derivation of a seed -/

/-- R177: the shift is at most 20. -/
theorem mod_shiftMod_le (n : Nat) : n % Config.shiftMod ≤ 20 := Nat.le_of_lt_succ (Nat.mod_lt n (by decide))

/-- A byte moved left by at most 20 places is at most `0xFF << 20`. -/
theorem byte_mul_two_pow_le (x : Byte) {n : Nat} (hn : n ≤ 20) : x.toNat * 2 ^ n ≤ 0x0FF00000 :=
  Nat.mul_le_mul (Nat.le_of_lt_succ x.isLt) (Nat.pow_le_pow_right two_pos hn)

/-- R177: a shift by at most 20 places pushes no bit of a byte out of 32 bits. -/
theorem toNat_setWidth_shiftLeft (x : Byte) {n : Nat} (hn : n ≤ 20) :
    (x.setWidth 32 <<< n).toNat = x.toNat * 2 ^ n := by
  have hx := byte_mul_two_pow_le x hn
  rw [BitVec.toNat_shiftLeft, BitVec.toNat_setWidth_of_le (by decide), Nat.shiftLeft_eq, Nat.mod_eq_of_lt (by omega)]

/-- R177: both operands of the exclusive or are below `2^28`, so the derived seed is. -/
theorem deriveSeed_toNat_lt (h : Harvest) : (deriveSeed h).toNat < 2 ^ 28 := by
  have hn := mod_shiftMod_le h.amount.toNat
  have hshifted := byte_mul_two_pow_le h.shifted hn
  have hxor := h.xor.isLt
  rw [deriveSeed, BitVec.toNat_xor, toNat_setWidth_shiftLeft _ hn, BitVec.toNat_setWidth_of_le (by decide)]
  exact Nat.xor_lt_two_pow (by omega) (by omega)

/-- A word below `2^28` has its top four bits 0. -/
theorem extractLsb'_top_eq_zero {w : Word} (h : w.toNat < 2 ^ 28) : w.extractLsb' 28 4 = 0 := by
  apply BitVec.eq_of_toNat_eq
  rw [BitVec.extractLsb'_toNat, Nat.shiftRight_eq_div_pow, Nat.div_eq_of_lt h]
  rfl

theorem deriveSeed_of_no_shift {h : Harvest} (hn : h.amount.toNat % Config.shiftMod = 0) :
    deriveSeed h = (h.shifted ^^^ h.xor).setWidth 32 := by
  rw [deriveSeed, hn, BitVec.shiftLeft_zero, BitVec.setWidth_xor]

/-- Settles O53: a byte shifted by at most 20 places stays below `2^28`, and the corners are checked byte by byte. -/
theorem derivedSeedBounds : Obligations.DerivedSeedBounds := by
  refine ⟨fun h => ?bounds, by decide⟩
  have hn := mod_shiftMod_le h.amount.toNat
  exact ⟨hn, toNat_setWidth_shiftLeft _ hn, byte_mul_two_pow_le _ hn, deriveSeed_toNat_lt h,
    extractLsb'_top_eq_zero (deriveSeed_toNat_lt h), deriveSeed_of_no_shift⟩

/-! ### RESEED -/

/-- What an effective RESEED has written when its fill begins: RS, the trigger sample if it takes one, and the harvest (R183, R184). -/
def State.readyToReseed (s : State) (cond : Bool) (h : Harvest) : State :=
  { s with rs := true, trig := if cond then true else s.trig, harvest := h }

/-- An effective RESEED is the seed fill from what it harvested. -/
theorem exec_reseed_of_reads {cond : Bool} {s : State} {a b c : Byte} (hp : s.phase ≠ .uninit)
    (ht : cond = false ∨ s.pins.trigger = true) (ha : s.readByte 0 0 = some a) (hb : s.readByte 64 4 = some b)
    (hc : s.readByte 32 2 = some c) :
    exec (.reseed cond) s = .next (((s.readyToReseed cond ⟨a, b, c⟩).applySeed (deriveSeed ⟨a, b, c⟩)).respond 0) := by
  cases cond with
  | false => exact exec_of_effect (.reseed hp (State.latchHarvest_of_reads ha hb hc))
  | true =>
    have htrig : s.pins.trigger = true := ht.resolve_left nofun
    have hu : s.sampleTrigger.latchHarvest = some (s.readyToReseed true ⟨a, b, c⟩) := by
      rw [State.latchHarvest_of_reads (s := s.sampleTrigger) ha hb hc, State.sampleTrigger, htrig]
      rfl
    exact exec_of_effect (.reseedTriggered hp htrig hu)

/-- Settles O31: the harvest is read from the old buffer, and the fill is that of SEED. -/
theorem effectiveReseedFillsFromTheHarvest : Obligations.EffectiveReseedFillsFromTheHarvest := by
  intro cond s a b c hp ht ha hb hc
  exact ⟨_, _, exec_reseed_of_reads hp ht ha hb hc, rfl, (congrArg (State.respond · 0) (State.applySeed_frame _ _) :),
    State.applySeed_readByte (s.readyToReseed cond _) _,
    fun _ => State.applySeed_mem_read_outside (s.readyToReseed cond _) _⟩

/-- Settles O54: both states harvest the same three bytes, and a fill replaces the whole buffer. -/
theorem reseedDependsOnTheHarvestOnly : Obligations.ReseedDependsOnTheHarvestOnly := by
  intro s t hs _ hps hpt h1 h2 h3
  obtain ⟨a, ha⟩ := State.exists_readByte (hs.currentWritten hps) 0 0
  obtain ⟨b, hb⟩ := State.exists_readByte (hs.currentWritten hps) 64 4
  obtain ⟨c, hc⟩ := State.exists_readByte (hs.currentWritten hps) 32 2
  refine ⟨_, _, exec_reseed_of_reads hps (.inl rfl) ha hb hc,
    exec_reseed_of_reads hpt (.inl rfl) (h1 ▸ ha) (h2 ▸ hb) (h3 ▸ hc), ?seed, ?prng, fun r b => ?byte⟩
  case seed => simp only [State.respond_seed, State.applySeed_seed]
  case prng => simp only [State.respond_prngState, State.applySeed_prngState]
  case byte => simp only [State.respond_readByte, State.applySeed_readByte]

/-- Settles O32: out of UNINIT a trigger sample of 0 ends the command before it harvests. -/
theorem reseedWithoutTriggerOnlyClearsRs : Obligations.ReseedWithoutTriggerOnlyClearsRs := by
  intro s hp ht
  rw [exec_of_effect (.reseedNotTriggered hp ht), State.sampleTrigger, ht, State.respond]

end Sys2Proof.Machine
end

section
/-! PROOFS. The control commands: the next states of NOP and RDREG, and the illegal words of NOP's opcode (R200 to R203). -/

namespace Sys2Proof.Machine

/-- A word with opcode 0 and any other bit set is among the reserved words (R76, R85). -/
theorem decode_eq_none_of_nop_reserved {w : Word} (op : w.extractLsb' 28 4 = 0) (reserved : w.extractLsb' 0 28 ≠ 0) :
    decode w = none :=
  (illegalWordsAreExactlyTheReserved w).2 (.inr (.inl ⟨by rw [op]; decide, reserved⟩))

/-- Settles O22: the `nop` case of `Effect`, and the reserved words of opcode 0. -/
theorem nopDoesNothing : Obligations.NopDoesNothing :=
  ⟨fun _ => exec_of_effect .nop, rfl, fun _ => decode_eq_none_of_nop_reserved⟩

/-- Settles O23: each selector below 4 is the `rdreg` case of `Effect` at its register; the others name none. -/
theorem rdregReturnsTheRegister : Obligations.RdregReturnsTheRegister := fun s =>
  ⟨exec_of_effect (.rdreg rfl), exec_of_effect (.rdreg rfl), exec_of_effect (.rdreg rfl), exec_of_effect (.rdreg rfl),
    fun sel hsel => exec_of_effect (.illegalSelector ((s.readReg_eq_none_iff sel).2 hsel))⟩

end Sys2Proof.Machine
end

section
/-! PROOFS. Errors: a command either keeps STATUS.ERR and responds without error, or raises ERR_ILLEGAL or ERR_UNINIT and changes
nothing else; a recorded ERR_INVARIANT stops the block until reset (R211 to R216). -/

namespace Sys2Proof.Machine

/-! ### The two ways a command completes -/

/-- The command that left `s` for `t` reported no error and recorded none (R74). -/
def CompletedWithoutError (s t : State) : Prop :=
  t.err = s.err ∧ ∃ v, t.port = .responding { rdata := v, rspErr := false }

theorem completedWithoutError_respond {s u : State} (h : u.err = s.err) (v : Word) :
    CompletedWithoutError s (u.respond v) := ⟨h, v, rfl⟩

/-- What a command leaves is completed without error, or is the state with ERR_ILLEGAL or ERR_UNINIT raised. -/
theorem Effect.completes_or_raises {i : Instr} {s t : State} (h : Effect s i t) :
    CompletedWithoutError s t ∨ ∃ e, (e = .illegal ∨ e = .uninit) ∧ t = s.raise e := by
  cases h with
  | illegalSelector => exact .inr ⟨_, .inl rfl, rfl⟩
  | uninit => exact .inr ⟨_, .inr rfl, rfl⟩
  | reseed _ harvest | reseedTriggered _ _ harvest =>
    refine .inl (completedWithoutError_respond ?_ _)
    rw [State.latchHarvest_frame harvest]
    rfl
  | _ => exact .inl (completedWithoutError_respond rfl _)

/-- The same of an accepted word, which may be illegal (R213). -/
theorem runCommand_completes_or_raises {s t : State} (h : runCommand s = .next t) :
    CompletedWithoutError s t ∨ ∃ e, (e = .illegal ∨ e = .uninit) ∧ t = s.raise e := by
  rcases runCommand_next h with ⟨-, rfl⟩ | ⟨i, -, hx⟩
  · exact .inr ⟨_, .inl rfl, rfl⟩
  · exact (exec_effect hx).completes_or_raises

/-- Settles O11: a command that completes without error keeps ERR none; one that raises records its error, for none stood. -/
theorem errorsAreRecordedWhenReported : Obligations.ErrorsAreRecordedWhenReported := by
  intro s t hp hr he h
  rcases step_next_cases h with ⟨h0, -⟩ | ⟨-, -, u, hu, rfl⟩
  · simp [hr] at h0
  rw [State.advancePins_err, State.advancePins_port]
  rw [portEvent_of_busy hp] at hu
  rcases runCommand_completes_or_raises hu with ⟨kept, v, response⟩ | ⟨e, rfl | rfl, rfl⟩
  · simp [kept, he, response]
  · simp [he]
  · simp [he]

/-! ### ERR_UNINIT -/

/-- A selector that a legal word can hold names a register (R83, R202). -/
theorem State.exists_readReg (s : State) {sel : BitVec 4} (h : (Instr.rdreg sel).wellFormed = true) :
    ∃ v, s.readReg sel = some v := by
  have legal : sel ≤ 3 := of_decide_eq_true h
  refine Option.ne_none_iff_exists'.1 fun noReg => ?_
  have reserved : 4 ≤ sel := (s.readReg_eq_none_iff sel).1 noReg
  exact absurd (BitVec.le_trans reserved legal) (by decide)

/-- A well-formed command that needs no buffer completes without error, in every phase (R214). -/
theorem exists_effect_without_error {i : Instr} (s : State) (wf : i.wellFormed = true) (needs : needsBuffer i = false) :
    ∃ t, Effect s i t ∧ CompletedWithoutError s t := by
  cases i with
  | nop => exact ⟨_, .nop, completedWithoutError_respond rfl _⟩
  | clear => exact ⟨_, .clear, completedWithoutError_respond rfl _⟩
  | seed => exact ⟨_, .seed, completedWithoutError_respond rfl _⟩
  | rdreg sel =>
    obtain ⟨v, reg⟩ := s.exists_readReg wf
    exact ⟨_, .rdreg reg, completedWithoutError_respond rfl _⟩
  | _ => cases needs

/-- Settles O9: the `uninit` case of `Effect`, and the four commands that need no buffer. -/
theorem uninitRaisesErrUninit : Obligations.UninitRaisesErrUninit := by
  refine ⟨rfl, fun i s wf => ⟨fun needs phase => exec_of_effect (.uninit needs phase), fun needs => ?_⟩⟩
  obtain ⟨t, effect, kept, v, response⟩ := exists_effect_without_error s wf needs
  exact ⟨t, v, exec_of_effect effect, kept, response⟩

/-! ### ERR_ILLEGAL -/

/-- R87 (a), (b): a word that matches no row of the opcode map spells no command. -/
theorem decode_eq_none_of_no_row {w : Word} (h : ∀ row ∈ opcodeRows, w &&& row.mask ≠ row.value) : decode w = none := by
  have no : ∀ row ∈ opcodeRows, row.matchesWord w = false := fun row hrow => beq_false_of_ne (h row hrow)
  simp only [opcodeRows, List.forall_mem_cons] at no
  simp [decode, no]

/-- R87 (c): RDREG with a reserved selector spells no command. -/
theorem decode_eq_none_of_reserved_selector {w : Word} (op : w.extractLsb' 28 4 = 9) (sel : 3 < w.extractLsb' 0 4) :
    decode w = none :=
  (illegalWordsAreExactlyTheReserved w).2 (.inr (.inr (.inr (.inr (.inr (.inr (.inr ⟨op, .inr sel⟩)))))))

theorem runCommand_of_illegal {s : State} (h : decode s.cmd = none) : runCommand s = .next (s.raise .illegal) := by
  rw [runCommand, h]

/-- Settles O8: neither kind of word decodes, and the event of the busy port raises ERR_ILLEGAL. -/
theorem illegalWordRecordsErrIllegal : Obligations.IllegalWordRecordsErrIllegal := by
  refine ⟨rfl, fun s hr he hp hw => ?_⟩
  have illegal : decode s.cmd = none := by
    rcases hw with noRow | ⟨op, sel⟩
    · exact decode_eq_none_of_no_row noRow
    · exact decode_eq_none_of_reserved_selector op sel
  exact step_of_portEvent hr he ((portEvent_of_busy hp).trans (runCommand_of_illegal illegal))

/-! ### ERR_INVARIANT -/

theorem step_of_invariant {s : State} (hr : s.pins.rstN = true) (he : s.err = .invariant) :
    step s = .fault .invariantViolation := by
  rw [step, blockStep, blockEdge, if_pos hr, if_pos he]

/-- With `rst_n` low a step resets the block, whatever its state (R240); then the signals advance. -/
theorem step_of_reset {s : State} (hr : s.pins.rstN = false) : step s = .next s.assertReset.advancePins :=
  step_next_iff.2 ⟨_, by rw [blockEdge, hr, if_neg Bool.false_ne_true], rfl⟩

/-- Settles O12: out of reset the block faults, in reset it takes its reset values. -/
theorem fatalErrorLeavesOnlyByReset : Obligations.FatalErrorLeavesOnlyByReset :=
  fun s he => ⟨fun hr => step_of_invariant hr he, fun hr => ⟨_, step_of_reset hr, by simp, by simp⟩⟩

end Sys2Proof.Machine
end

section
/-! PROOFS. Reset: what the outputs of the port show with `rst_n` low, and what a step leaves (R240, R241). -/

namespace Sys2Proof.Machine

/-- `cmd_ready` follows `rst_n` low at once, whatever the port holds (R240). -/
theorem State.cmdReady_of_reset {s : State} (hr : s.pins.rstN = false) : s.cmdReady = false := by
  rw [State.cmdReady, hr, Bool.false_and]

/-- A response still held by the port is not presented with `rst_n` low (R240). -/
theorem State.rspValid_of_reset {s : State} (hr : s.pins.rstN = false) : s.rspValid = false := by
  rw [State.rspValid, State.response, hr, Option.isSome_none]

/-- Settles O14: the two outputs of the port in reset, and the step that takes the reset values. -/
theorem resetAbandonsEverything : Obligations.ResetAbandonsEverything :=
  fun _ hr => ⟨State.cmdReady_of_reset hr, State.rspValid_of_reset hr, step_of_reset hr⟩

end Sys2Proof.Machine
end
